-- ==== Sys2Proof/Word.lean ====
section
/-!
DEFINITION. The byte and the two fixed shapes of bytes the CORE works on: the list of four bytes
(a column or a row of the grid, a vector of `mix`, a word of the key schedule) and the 4 by 4 grid
(spec 00_scope.md R8, R10; 10_state.md R26).
-/

namespace Sys2Proof

/-- A byte: an unsigned integer in 0..255, bit 7 the most significant (R8). -/
abbrev Byte := BitVec 8

/-- A list of exactly four bytes `[b0, b1, b2, b3]` in index order (R10). -/
@[ext] structure Quad where
  b0 : Byte
  b1 : Byte
  b2 : Byte
  b3 : Byte
  deriving DecidableEq, Repr

/-- The element at a zero-based index (R10). -/
def Quad.get (q : Quad) : Fin 4 → Byte
  | 0 => q.b0
  | 1 => q.b1
  | 2 => q.b2
  | 3 => q.b3

/-- The four bytes given index by index. -/
def Quad.ofFn (f : Fin 4 → Byte) : Quad := ⟨f 0, f 1, f 2, f 3⟩

/-- The same function on each of the four bytes. -/
def Quad.map (f : Byte → Byte) (q : Quad) : Quad := ⟨f q.b0, f q.b1, f q.b2, f q.b3⟩

/-- Bitwise exclusive or, byte by byte (R9). -/
def Quad.xor (p q : Quad) : Quad := ⟨p.b0 ^^^ q.b0, p.b1 ^^^ q.b1, p.b2 ^^^ q.b2, p.b3 ^^^ q.b3⟩

/-- A 4 by 4 grid of bytes, held as its four rows (R10, R26). -/
@[ext] structure Grid where
  r0 : Quad
  r1 : Quad
  r2 : Quad
  r3 : Quad
  deriving DecidableEq, Repr

/-- Row `r` of the grid: `[G[r][0], G[r][1], G[r][2], G[r][3]]` (R26). -/
def Grid.row (g : Grid) : Fin 4 → Quad
  | 0 => g.r0
  | 1 => g.r1
  | 2 => g.r2
  | 3 => g.r3

/-- `G[r][c]`: row index first, column index second (R10). -/
def Grid.get (g : Grid) (r c : Fin 4) : Byte := (g.row r).get c

/-- Column `c` of the grid: `[G[0][c], G[1][c], G[2][c], G[3][c]]` (R26). -/
def Grid.col (g : Grid) (c : Fin 4) : Quad := Quad.ofFn fun r => g.get r c

/-- The grid given element by element, row index first. -/
def Grid.ofFn (f : Fin 4 → Fin 4 → Byte) : Grid :=
  ⟨Quad.ofFn (f 0), Quad.ofFn (f 1), Quad.ofFn (f 2), Quad.ofFn (f 3)⟩

end Sys2Proof
end

