-- ==== Sys2Proof/Syntax.lean ====
section
/-!
DEFINITION. The 25 commands of spec 30_encoding.md R80, one constructor per row of the opcode table,
operands in the order of the written form (R84). Every small operand, the narrow ones too, is held as
the whole field A or B, an offset and a packed vector as the whole field IMM (R75, R77). That a narrow operand fits its few bits is `Instr.wf` (WellFormed.lean;
DESIGN CHOICE, log entry 8; safe).
-/

namespace Sys2Proof

/-- A command of the PyAES CORE command set (R80). -/
inductive Instr where
  /-- `GFADD a, b` (R107) -/
  | gfadd (a b : Byte)
  /-- `GFDBL a` (R108) -/
  | gfdbl (a : Byte)
  /-- `GFMUL a, b` (R109) -/
  | gfmul (a b : Byte)
  /-- `GFMIX v`, `v` packed as R87 says (R110) -/
  | gfmix (v : BitVec 32)
  /-- `GFIMIX v` (R111) -/
  | gfimix (v : BitVec 32)
  /-- `SBOX a` (R124) -/
  | sbox (a : Byte)
  /-- `ISBOX a` (R125) -/
  | isbox (a : Byte)
  /-- `RCON i`, `i` the field A (R126) -/
  | rcon (i : BitVec 8)
  /-- `KEYLD` (R145) -/
  | keyld
  /-- `KEXP` (R146) -/
  | kexp
  /-- `RDRK round, row`, the fields A and B (R147) -/
  | rdrk (round row : BitVec 8)
  /-- `LOAD off` (R163) -/
  | load (off : BitVec 32)
  /-- `DUMP off` (R164) -/
  | dump (off : BitVec 32)
  /-- `CONS off, len` (R165) -/
  | cons (off : BitVec 32) (len : BitVec 8)
  /-- `RDROW row`, the field A (R166) -/
  | rdrow (row : BitVec 8)
  /-- `SUBBYTES` (R185) -/
  | subbytes
  /-- `ISUBBYTES` (R186) -/
  | isubbytes
  /-- `SHIFTROWS` (R187) -/
  | shiftrows
  /-- `ISHIFTROWS` (R188) -/
  | ishiftrows
  /-- `MIXCOLS` (R189) -/
  | mixcols
  /-- `IMIXCOLS` (R190) -/
  | imixcols
  /-- `ADDRK round`, the field A (R191) -/
  | addrk (round : BitVec 8)
  /-- `ENCRYPT` (R202) -/
  | encrypt
  /-- `DECRYPT` (R203) -/
  | decrypt
  /-- `RDCSR n`, the field A (R215) -/
  | rdcsr (n : BitVec 8)
  deriving DecidableEq, Repr

/-- The mnemonic of a command as the opcode table spells it (R80, R84). -/
def Instr.mnemonic : Instr → String
  | .gfadd _ _ => "GFADD"
  | .gfdbl _ => "GFDBL"
  | .gfmul _ _ => "GFMUL"
  | .gfmix _ => "GFMIX"
  | .gfimix _ => "GFIMIX"
  | .sbox _ => "SBOX"
  | .isbox _ => "ISBOX"
  | .rcon _ => "RCON"
  | .keyld => "KEYLD"
  | .kexp => "KEXP"
  | .rdrk _ _ => "RDRK"
  | .load _ => "LOAD"
  | .dump _ => "DUMP"
  | .cons _ _ => "CONS"
  | .rdrow _ => "RDROW"
  | .subbytes => "SUBBYTES"
  | .isubbytes => "ISUBBYTES"
  | .shiftrows => "SHIFTROWS"
  | .ishiftrows => "ISHIFTROWS"
  | .mixcols => "MIXCOLS"
  | .imixcols => "IMIXCOLS"
  | .addrk _ => "ADDRK"
  | .encrypt => "ENCRYPT"
  | .decrypt => "DECRYPT"
  | .rdcsr _ => "RDCSR"

end Sys2Proof
end

