-- ==== Sys2Proof/WellFormed.lean ====
section
/-!
DEFINITION. Which written commands have an encoding: every narrow operand fits its field
(spec 30_encoding.md R77, R85: `RDROW 4` and `ADDRK 16` have none).
-/

namespace Sys2Proof

/-- The command's operands fit the bits R77 gives them, so that it has an encoding (R85). -/
def Instr.wf : Instr → Bool
  | .gfadd _ _ => true
  | .gfdbl _ => true
  | .gfmul _ _ => true
  | .gfmix _ => true
  | .gfimix _ => true
  | .sbox _ => true
  | .isbox _ => true
  | .rcon i => i.toNat < 16
  | .keyld => true
  | .kexp => true
  | .rdrk round row => round.toNat < 16 && row.toNat < 4
  | .load _ => true
  | .dump _ => true
  | .cons _ _ => true
  | .rdrow row => row.toNat < 4
  | .subbytes => true
  | .isubbytes => true
  | .shiftrows => true
  | .ishiftrows => true
  | .mixcols => true
  | .imixcols => true
  | .addrk round => round.toNat < 16
  | .encrypt => true
  | .decrypt => true
  | .rdcsr n => n.toNat < 2

end Sys2Proof
end

