-- ==== Sys2Proof/Decode.lean ====
section
/-!
DEFINITION. The decoder and the encoder of the command word (spec 30_encoding.md R75 to R77, R80,
R81, R86) and the written form of a command (R84). The decoder is total on the 2^64 words, looks at no state, and names why it refuses a
word; every refused word is an illegal command (R81).
-/

namespace Sys2Proof

/-- The fields of a command word (R75). -/
@[ext] structure Fields where
  opc : BitVec 8
  rsv : BitVec 7
  inv : BitVec 1
  a : BitVec 8
  b : BitVec 8
  imm : BitVec 32
  deriving DecidableEq, Repr

/-- Cuts `CMD[63:0]` into its fields (R75). -/
def fieldsOf (w : BitVec 64) : Fields where
  opc := w.extractLsb' 56 8
  rsv := w.extractLsb' 49 7
  inv := w.extractLsb' 48 1
  a := w.extractLsb' 40 8
  b := w.extractLsb' 32 8
  imm := w.extractLsb' 0 32

/-- The word with these fields, OPC in the most significant bits (R75). -/
def wordOf (f : Fields) : BitVec 64 :=
  f.opc ++ f.rsv ++ f.inv ++ f.a ++ f.b ++ f.imm

/-- One row of the opcode map: how many low bits of A and of B the command uses, whether it uses IMM,
and the command built from the fields (R77, R80). -/
structure OpcodeRow where
  aBits : Nat
  bBits : Nat
  usesImm : Bool
  build : BitVec 8 → BitVec 8 → BitVec 32 → Instr

/-- The opcode map: OPC and INV to a row, none where no mnemonic stands (R80). -/
def opcodeRow (opc : BitVec 8) (inv : BitVec 1) : Option OpcodeRow :=
  match opc, inv with
  | 0x10#8, 0#1 => some ⟨8, 8, false, fun a b _ => .gfadd a b⟩
  | 0x11#8, 0#1 => some ⟨8, 0, false, fun a _ _ => .gfdbl a⟩
  | 0x12#8, 0#1 => some ⟨8, 8, false, fun a b _ => .gfmul a b⟩
  | 0x13#8, 0#1 => some ⟨0, 0, true, fun _ _ v => .gfmix v⟩
  | 0x13#8, 1#1 => some ⟨0, 0, true, fun _ _ v => .gfimix v⟩
  | 0x20#8, 0#1 => some ⟨8, 0, false, fun a _ _ => .sbox a⟩
  | 0x20#8, 1#1 => some ⟨8, 0, false, fun a _ _ => .isbox a⟩
  | 0x21#8, 0#1 => some ⟨4, 0, false, fun a _ _ => .rcon a⟩
  | 0x30#8, 0#1 => some ⟨0, 0, false, fun _ _ _ => .keyld⟩
  | 0x31#8, 0#1 => some ⟨0, 0, false, fun _ _ _ => .kexp⟩
  | 0x32#8, 0#1 => some ⟨4, 2, false, fun a b _ => .rdrk a b⟩
  | 0x40#8, 0#1 => some ⟨0, 0, true, fun _ _ o => .load o⟩
  | 0x41#8, 0#1 => some ⟨0, 0, true, fun _ _ o => .dump o⟩
  | 0x42#8, 0#1 => some ⟨8, 0, true, fun a _ o => .cons o a⟩
  | 0x43#8, 0#1 => some ⟨2, 0, false, fun a _ _ => .rdrow a⟩
  | 0x50#8, 0#1 => some ⟨0, 0, false, fun _ _ _ => .subbytes⟩
  | 0x50#8, 1#1 => some ⟨0, 0, false, fun _ _ _ => .isubbytes⟩
  | 0x51#8, 0#1 => some ⟨0, 0, false, fun _ _ _ => .shiftrows⟩
  | 0x51#8, 1#1 => some ⟨0, 0, false, fun _ _ _ => .ishiftrows⟩
  | 0x52#8, 0#1 => some ⟨0, 0, false, fun _ _ _ => .mixcols⟩
  | 0x52#8, 1#1 => some ⟨0, 0, false, fun _ _ _ => .imixcols⟩
  | 0x53#8, 0#1 => some ⟨4, 0, false, fun a _ _ => .addrk a⟩
  | 0x60#8, 0#1 => some ⟨0, 0, false, fun _ _ _ => .encrypt⟩
  | 0x61#8, 0#1 => some ⟨0, 0, false, fun _ _ _ => .decrypt⟩
  | 0x70#8, 0#1 => some ⟨1, 0, false, fun a _ _ => .rdcsr a⟩
  | _, _ => none

/-- Why a word is no command, clause by clause of R81. Which clause is named first is a DESIGN CHOICE
(log entry 10; safe: every refused word has the same effect). -/
inductive Reject where
  /-- OPC is not one of the 20 codes. -/
  | unassignedOpc
  /-- RSV is not 0. -/
  | reservedBits
  /-- INV = 1 on a command that has no inverse form. -/
  | noInverse
  /-- A bit of A that the command does not use is not 0. -/
  | unusedA
  /-- A bit of B that the command does not use is not 0. -/
  | unusedB
  /-- IMM is not 0 on a command that does not use it. -/
  | unusedImm
  deriving DecidableEq, Repr

/-- The decoder, on the fields (R81, R86). -/
def decodeFields (f : Fields) : Except Reject Instr :=
  match opcodeRow f.opc 0#1, opcodeRow f.opc f.inv with
  | none, _ => .error .unassignedOpc
  | some _, none => .error .noInverse
  | some _, some r =>
    if f.rsv ≠ 0#7 then .error .reservedBits
    else if 2 ^ r.aBits ≤ f.a.toNat then .error .unusedA
    else if 2 ^ r.bBits ≤ f.b.toNat then .error .unusedB
    else if r.usesImm = false ∧ f.imm ≠ 0#32 then .error .unusedImm
    else .ok (r.build f.a f.b f.imm)

/-- The decoder: a 64-bit word to a command, or to the reason it is illegal (R83, R86). -/
def decode (w : BitVec 64) : Except Reject Instr := decodeFields (fieldsOf w)

/-- The fields of a command; a field it does not use is 0 (R75, R76, R80). -/
def Instr.fields : Instr → Fields
  | .gfadd a b => ⟨0x10, 0, 0, a, b, 0⟩
  | .gfdbl a => ⟨0x11, 0, 0, a, 0, 0⟩
  | .gfmul a b => ⟨0x12, 0, 0, a, b, 0⟩
  | .gfmix v => ⟨0x13, 0, 0, 0, 0, v⟩
  | .gfimix v => ⟨0x13, 0, 1, 0, 0, v⟩
  | .sbox a => ⟨0x20, 0, 0, a, 0, 0⟩
  | .isbox a => ⟨0x20, 0, 1, a, 0, 0⟩
  | .rcon i => ⟨0x21, 0, 0, i, 0, 0⟩
  | .keyld => ⟨0x30, 0, 0, 0, 0, 0⟩
  | .kexp => ⟨0x31, 0, 0, 0, 0, 0⟩
  | .rdrk round row => ⟨0x32, 0, 0, round, row, 0⟩
  | .load off => ⟨0x40, 0, 0, 0, 0, off⟩
  | .dump off => ⟨0x41, 0, 0, 0, 0, off⟩
  | .cons off len => ⟨0x42, 0, 0, len, 0, off⟩
  | .rdrow row => ⟨0x43, 0, 0, row, 0, 0⟩
  | .subbytes => ⟨0x50, 0, 0, 0, 0, 0⟩
  | .isubbytes => ⟨0x50, 0, 1, 0, 0, 0⟩
  | .shiftrows => ⟨0x51, 0, 0, 0, 0, 0⟩
  | .ishiftrows => ⟨0x51, 0, 1, 0, 0, 0⟩
  | .mixcols => ⟨0x52, 0, 0, 0, 0, 0⟩
  | .imixcols => ⟨0x52, 0, 1, 0, 0, 0⟩
  | .addrk round => ⟨0x53, 0, 0, round, 0, 0⟩
  | .encrypt => ⟨0x60, 0, 0, 0, 0, 0⟩
  | .decrypt => ⟨0x61, 0, 0, 0, 0, 0⟩
  | .rdcsr n => ⟨0x70, 0, 0, n, 0, 0⟩

/-- The word of a well-formed command (R75, R80). -/
def encode (i : Instr) : BitVec 64 := wordOf i.fields

/-- A hexadecimal digit in capitals (R8). -/
def hexDigit (x : BitVec 4) : String :=
  ["0", "1", "2", "3", "4", "5", "6", "7", "8", "9", "A", "B", "C", "D", "E", "F"].getD x.toNat ""

/-- A vector operand as R84 writes it: one hexadecimal number whose eight digits are the four bytes in
order. -/
def vectorText (v : BitVec 32) : String :=
  [28, 24, 20, 16, 12, 8, 4, 0].foldl (fun text k => text ++ hexDigit (v.extractLsb' k 4)) "0x"

/-- The written form of a command: the mnemonic, then the operands separated by commas, IMM before A for
CONS; numbers in decimal, a vector in hexadecimal (R84). -/
def Instr.written (i : Instr) : String :=
  let operands : List String :=
    match i with
    | .gfadd a b => [toString a.toNat, toString b.toNat]
    | .gfdbl a => [toString a.toNat]
    | .gfmul a b => [toString a.toNat, toString b.toNat]
    | .gfmix v => [vectorText v]
    | .gfimix v => [vectorText v]
    | .sbox a => [toString a.toNat]
    | .isbox a => [toString a.toNat]
    | .rcon x => [toString x.toNat]
    | .keyld => []
    | .kexp => []
    | .rdrk round row => [toString round.toNat, toString row.toNat]
    | .load off => [toString off.toNat]
    | .dump off => [toString off.toNat]
    | .cons off len => [toString off.toNat, toString len.toNat]
    | .rdrow row => [toString row.toNat]
    | .subbytes => []
    | .isubbytes => []
    | .shiftrows => []
    | .ishiftrows => []
    | .mixcols => []
    | .imixcols => []
    | .addrk round => [toString round.toNat]
    | .encrypt => []
    | .decrypt => []
    | .rdcsr n => [toString n.toNat]
  if operands = [] then i.mnemonic else i.mnemonic ++ " " ++ String.intercalate ", " operands

/-- One row of `opcode_table.json`: a word is its command exactly when `(CMD & mask) == match` (R80). -/
structure TableRow where
  mnemonic : String
  pattern : BitVec 64
  mask : BitVec 64
  deriving DecidableEq, Repr

/-- The word is the command of this row (R80, R86). -/
def TableRow.hits (r : TableRow) (w : BitVec 64) : Bool := w &&& r.mask = r.pattern

/-- The 25 rows of `opcode_table.json`, mnemonic, match and mask as they stand there. The decoder does
not use them; claims compare it with them. -/
def opcodeTable : List TableRow :=
  [⟨"GFADD", 0x1000000000000000, 0xFFFF0000FFFFFFFF⟩,
   ⟨"GFDBL", 0x1100000000000000, 0xFFFF00FFFFFFFFFF⟩,
   ⟨"GFMUL", 0x1200000000000000, 0xFFFF0000FFFFFFFF⟩,
   ⟨"GFMIX", 0x1300000000000000, 0xFFFFFFFF00000000⟩,
   ⟨"GFIMIX", 0x1301000000000000, 0xFFFFFFFF00000000⟩,
   ⟨"SBOX", 0x2000000000000000, 0xFFFF00FFFFFFFFFF⟩,
   ⟨"ISBOX", 0x2001000000000000, 0xFFFF00FFFFFFFFFF⟩,
   ⟨"RCON", 0x2100000000000000, 0xFFFFF0FFFFFFFFFF⟩,
   ⟨"KEYLD", 0x3000000000000000, 0xFFFFFFFFFFFFFFFF⟩,
   ⟨"KEXP", 0x3100000000000000, 0xFFFFFFFFFFFFFFFF⟩,
   ⟨"RDRK", 0x3200000000000000, 0xFFFFF0FCFFFFFFFF⟩,
   ⟨"LOAD", 0x4000000000000000, 0xFFFFFFFF00000000⟩,
   ⟨"DUMP", 0x4100000000000000, 0xFFFFFFFF00000000⟩,
   ⟨"CONS", 0x4200000000000000, 0xFFFF00FF00000000⟩,
   ⟨"RDROW", 0x4300000000000000, 0xFFFFFCFFFFFFFFFF⟩,
   ⟨"SUBBYTES", 0x5000000000000000, 0xFFFFFFFFFFFFFFFF⟩,
   ⟨"ISUBBYTES", 0x5001000000000000, 0xFFFFFFFFFFFFFFFF⟩,
   ⟨"SHIFTROWS", 0x5100000000000000, 0xFFFFFFFFFFFFFFFF⟩,
   ⟨"ISHIFTROWS", 0x5101000000000000, 0xFFFFFFFFFFFFFFFF⟩,
   ⟨"MIXCOLS", 0x5200000000000000, 0xFFFFFFFFFFFFFFFF⟩,
   ⟨"IMIXCOLS", 0x5201000000000000, 0xFFFFFFFFFFFFFFFF⟩,
   ⟨"ADDRK", 0x5300000000000000, 0xFFFFF0FFFFFFFFFF⟩,
   ⟨"ENCRYPT", 0x6000000000000000, 0xFFFFFFFFFFFFFFFF⟩,
   ⟨"DECRYPT", 0x6100000000000000, 0xFFFFFFFFFFFFFFFF⟩,
   ⟨"RDCSR", 0x7000000000000000, 0xFFFFFEFFFFFFFFFF⟩]

/-- What the decoder reads from the first `nbits` bits of `w`, bits above them zero. A command is one
word of 64 bits given whole, and the table's bit 0 is the word's bit 0 (R75), so nothing is laid out
in bytes. -/
def decodeTableWord (nbits w : Nat) : Option Instr :=
  match decode (BitVec.ofNat 64 (w % 2 ^ nbits)) with
  | .ok i => some i
  | .error _ => none

end Sys2Proof
end

