-- ==== Sys2Proof/Machine/Operands.lean ====
section
/-!
DEFINITION. The operand forms: the packing of four bytes into 32 bits (spec 30_encoding.md R87) and the
numbers the small fields hold (R77).
-/

namespace Sys2Proof.Machine

/-- `{v0, v1, v2, v3}`: `v0` in bits 31:24, `v3` in bits 7:0 (R87). -/
def packQuad (q : Quad) : BitVec 32 := q.b0 ++ q.b1 ++ q.b2 ++ q.b3

/-- The four bytes of a packed vector operand (R87, R110). -/
def unpackQuad (v : BitVec 32) : Quad :=
  ⟨v.extractLsb' 24 8, v.extractLsb' 16 8, v.extractLsb' 8 8, v.extractLsb' 0 8⟩

/-- A byte result in DATA: bits 7:0, the bits above 0 (R78). -/
def byteData (b : Byte) : BitVec 32 := b.setWidth 32

/-- A round index, a round-constant index, an offset or a length as the unsigned number its field holds
(R77). -/
def numberOf {n : Nat} (x : BitVec n) : Nat := x.toNat

/-- A row index: bits 1:0 of its field (R77; the bits above are required 0 by the decoder, log entry 8). -/
def rowOf (x : BitVec 8) : Fin 4 := ⟨x.toNat % 4, Nat.mod_lt _ (by decide)⟩

/-- A CSR number: bit 0 of its field (R77; the bits above are required 0 by the decoder, log entry 8). -/
def csrOf (x : BitVec 8) : Bool := x.getLsbD 0

end Sys2Proof.Machine
end

