-- ==== Sys2Proof/Config.lean ====
section
/-!
DEFINITION. The implementation parameters of spec 00_scope.md R7 that the machine uses as named
constants. The spec leaves no parameter open (92_eei_decisions.md, last sentence of its opening), so
nothing here is opaque and there is no free value.
-/

namespace Sys2Proof.Config

/-- BLOCK_BYTES, the bytes in a block (R7). -/
def blockBytes : Nat := 16

/-- MAX_LEN, the largest length of BUF and of KSRC (R7, R50). -/
def maxLen : Nat := 2 ^ 32 - 1

/-- The reduction byte of the field (R7, R102). -/
def reductionByte : Byte := 0x1B

/-- RCON_LEN, the entries of the round-constant table (R7, R123). -/
def rconLen : Nat := 10

end Sys2Proof.Config
end

