-- ==== Sys2Proof/Machine/State.lean ====
section
/-!
DEFINITION. The state of the machine as plain data: the registers of the CORE (spec 10_state.md), the
two byte spaces it reaches (20_memory.md R50), the responses it has given (30_encoding.md R78), and
the moves the HOST has yet to make (49_host_padding_and_streaming.md R220). And the ways a step can
stop, and the state after reset.
-/

namespace Sys2Proof.Machine

/-- A byte space, BUF or KSRC: a finite sequence of bytes with a length (R50). The bytes stand as
(offset, byte) pairs, offsets strictly rising and below the length, no pair with the byte 0x00, which
is what an unlisted offset below the length holds (DESIGN CHOICE of the form, log entry 4; safe, since
no operation shows a byte that was not given). -/
structure Space where
  len : Nat
  cells : List Host.Cell
  deriving DecidableEq, Repr

/-- The length of a Key: 16, 24 or 32 bytes, never anything else (R21). -/
inductive KeySize where
  | bytes16
  | bytes24
  | bytes32
  deriving DecidableEq, Repr

/-- The response to one command: ST and DATA (R78). -/
structure Response where
  st : BitVec 8
  data : BitVec 32
  deriving DecidableEq, Repr

/-- The errors of R251. The first six are raised by commands of the CORE, the last two only by
procedures of the HOST (R254, R255). -/
inductive Err where
  | keySizeError
  | stateSizeError
  | illegalCommand
  | notReady
  | rangeError
  | boundsError
  | paddingCorruption
  | unsupportedInputType
  deriving DecidableEq, Repr

/-- Which of the two stream procedures runs (R224, R225). -/
inductive Direction where
  | encrypt
  | decrypt
  deriving DecidableEq, Repr

/-- A move of the HOST (R220), a procedure it runs (R221, R222, R224, R225), or the stage a stream
procedure has reached. A procedure is made of the moves above it (DESIGN CHOICE, log entry 6; safe). -/
inductive Move where
  /-- Issue the command with this 64-bit word. -/
  | command (w : BitVec 64)
  /-- Read up to `n` bytes of BUF from offset `off` (capability a of R51). -/
  | readBuf (off n : Nat)
  /-- Write bytes over BUF at offset `off`, inside the current length (capability b). -/
  | writeBuf (off : Nat) (bytes : List Byte)
  /-- Append bytes to BUF (capability c). -/
  | appendBuf (bytes : List Byte)
  /-- Truncate BUF to a length not above the current one (capability d). -/
  | truncateBuf (len : Nat)
  /-- Ask the length of BUF (capability e). -/
  | lengthBuf
  /-- Set KSRC to a byte sequence. -/
  | setKsrc (bytes : List Byte)
  /-- Assert reset (R285). -/
  | reset
  /-- `append_padding()` (R221). -/
  | appendPadding
  /-- `strip_padding()` (R222). -/
  | stripPadding
  /-- `encrypt_stream()` (R224). -/
  | encryptStream
  /-- `decrypt_stream()` (R225). -/
  | decryptStream
  /-- The stream loop at `r = issue(LOAD off)`. -/
  | streamLoad (d : Direction) (off : Nat)
  /-- The stream loop at `r = issue(ENCRYPT)` or `r = issue(DECRYPT)`. -/
  | streamCipher (d : Direction) (off : Nat)
  /-- The stream loop at `r = issue(DUMP off)`. -/
  | streamDump (d : Direction) (off : Nat)
  deriving DecidableEq, Repr

/-- What a move other than a command hands back to the HOST (R220), or how a procedure of the HOST
ended (R223, R229). -/
inductive HostResult where
  /-- The bytes a `readBuf` found. -/
  | bytes (l : List Byte)
  /-- The length of BUF. -/
  | length (n : Nat)
  /-- A procedure came to its `return`. -/
  | returned
  /-- A procedure failed or was aborted, with this code, handed on unchanged (R229). -/
  | failed (code : BitVec 8)
  deriving DecidableEq, Repr

/-- The state. The registers have the spec's own names. `none` is the spec's `novalue`: the register
holds no defined content (R11, R37; log entry 1). -/
structure State where
  /-- The Block State, the general register file of 16 bytes; `none` is novalue (R26). -/
  S : Option Grid
  /-- A Block State has been constructed (R27). -/
  BV : Bool
  /-- The 32 bytes of the key register, each a byte or novalue (R20). -/
  K : Vector (Option Byte) 32
  /-- The length of the Key in bytes (R21). -/
  KLEN : Option KeySize
  /-- A Key has been constructed (R23). -/
  KV : Bool
  /-- The Key Schedule: 60 columns of 4 bytes, each a column or novalue (R24). -/
  W : Vector (Option Quad) 60
  /-- W holds the schedule of the current Key (R25). -/
  SV : Bool
  /-- The code of the first error since reset, 0x00 if none (R28). -/
  ERR : BitVec 8
  /-- The byte source and sink, outside the CORE (R50, R51). -/
  BUF : Space
  /-- The key material source, outside the CORE (R50, R55). -/
  KSRC : Space
  /-- The responses given so far, oldest first (R30, R78). -/
  responses : List Response
  /-- The moves the HOST has yet to make, next first (R30, R220; DESIGN CHOICE, log entry 2; safe). -/
  host : List Move
  /-- What the HOST got back from moves other than commands, oldest first (R220). -/
  hostResults : List HostResult
  deriving DecidableEq, Repr

/-- The reasons a step stops the machine. No command ends in one in a state the machine can reach:
each needs a valid flag at 1 beside a register that holds novalue, which the invariant
`State.Inv` (Safety.lean) rules out and R37 says no rule reads. Safe: the model stops where the spec
gives no value to read. -/
inductive Fault where
  /-- K or KLEN is read while it holds novalue. Raised by RDRK, KEXP, ADDRK, ENCRYPT, DECRYPT and
  RDCSR when KV = 1 and KLEN, or a byte of K below KLEN, is novalue. Safe. -/
  | keyNovalue
  /-- W is read while it holds novalue. Raised by RDRK, ADDRK, ENCRYPT and DECRYPT when SV = 1 and a
  column of W they read is novalue. Safe. -/
  | scheduleNovalue
  /-- S is read while it holds novalue. Raised by DUMP, RDROW, the seven transforms, ENCRYPT and
  DECRYPT when BV = 1 and S is novalue. Safe. -/
  | blockNovalue
  deriving DecidableEq, Repr

/-- The reasons a step is refused. None is about a command: every command word has its outcome
(R250). Each is a move the HOST is not offered (R220, 93_implementation_defined.md U19; DESIGN CHOICE,
log entry 5). Safe: the model takes no step where the spec gives the HOST no such move. -/
inductive Refusal where
  /-- A command without a meaning. Raised by no arm of `exec`. Safe. -/
  | notModelled (mnemonic : String)
  /-- `writeBuf` not inside the current length of BUF (R220). Safe. -/
  | hostWriteOutsideBuf
  /-- `truncateBuf` to a length above the current one (R220). Safe. -/
  | hostTruncateAboveLength
  /-- A move that would make BUF longer than MAX_LEN (R50, R221, U19). Safe. -/
  | bufAboveMaxLen
  /-- `setKsrc` to a sequence longer than MAX_LEN (R50). Safe. -/
  | ksrcAboveMaxLen
  /-- A stream procedure at an offset of 2^32 or more, which has no operand (R60, R85). Safe. -/
  | offsetHasNoEncoding
  deriving DecidableEq, Repr

/-- The empty byte space. -/
def Space.empty : Space := ⟨0, []⟩

/-- The state after reset (R36, R286): KV, SV, BV and ERR are 0, and K, KLEN, W and S hold novalue.
BUF and KSRC are not part of the CORE; they are empty until the HOST fills them (DESIGN CHOICE, log
entry 3), and no move is pending and nothing has been answered (log entry 2). -/
def State.reset : State where
  S := none
  BV := false
  K := Vector.replicate 32 none
  KLEN := none
  KV := false
  W := Vector.replicate 60 none
  SV := false
  ERR := 0x00
  BUF := Space.empty
  KSRC := Space.empty
  responses := []
  host := []
  hostResults := []

end Sys2Proof.Machine
end

