-- ==== Sys2Proof/Machine/Flags.lean ====
section
/-!
DEFINITION. The valid flags and what is read of them: the derived attributes of the Key
(spec 10_state.md R22), the STATUS and KINFO views (R32, R33) and the readiness tests of
60_exceptions.md R257. There is no other flag (R31).
-/

namespace Sys2Proof.Machine

/-- KLEN in bytes (R21). -/
def KeySize.klen : KeySize → Nat
  | .bytes16 => 16
  | .bytes24 => 24
  | .bytes32 => 32

/-- The size of a key of `n` bytes, none where `n` is no legal length (R21, R135). -/
def KeySize.ofLength (n : Nat) : Option KeySize :=
  if n = 16 then some .bytes16
  else if n = 24 then some .bytes24
  else if n = 32 then some .bytes32
  else none

/-- `KBITS = 8 * KLEN` (R22). -/
def KeySize.kbits (z : KeySize) : Nat := 8 * z.klen

/-- `NK = KLEN / 4` (R22). -/
def KeySize.nk (z : KeySize) : Nat := z.klen / 4

/-- NR: 10, 12 or 14 (R22). -/
def KeySize.nr : KeySize → Nat
  | .bytes16 => 10
  | .bytes24 => 12
  | .bytes32 => 14

/-- The columns of the schedule, `4 * (NR + 1)`: 44, 52 or 60 (R136). -/
def KeySize.columns (z : KeySize) : Nat := 4 * (z.nr + 1)

/-- A flag as one bit. -/
def flagBit (b : Bool) : BitVec 1 := BitVec.ofBool b

/-- STATUS: `{0x0000, ERR, 0b00000, BV, SV, KV}` (R32, R215). -/
def statusWord (s : State) : BitVec 32 :=
  0x0000#16 ++ s.ERR ++ 0b00000#5 ++ flagBit s.BV ++ flagBit s.SV ++ flagBit s.KV

/-- KINFO of a loaded Key: KBITS in bits 31:16, NR in 15:8, NK in 7:0 (R33, R215). -/
def kinfoWord (z : KeySize) : BitVec 32 :=
  BitVec.ofNat 16 z.kbits ++ BitVec.ofNat 8 z.nr ++ BitVec.ofNat 8 z.nk

/-- A command that needs a Key finds it missing (R257). -/
def keyMissing (s : State) : Bool := !s.KV

/-- A command that needs a Block State finds it missing (R257). -/
def blockMissing (s : State) : Bool := !s.BV

/-- A command that needs both finds one missing; the one error NotReady whichever it is (R257). -/
def keyOrBlockMissing (s : State) : Bool := !s.KV || !s.BV

end Sys2Proof.Machine
end

