-- ==== Sys2Proof/Machine/Field.lean ====
section
/-!
DEFINITION. The pure functions of the GF(2^8) arithmetic unit (spec 40_gf_arithmetic.md R101 to R106).
-/

namespace Sys2Proof.Machine

/-- Addition in the field: bitwise XOR (R101). -/
def gfAdd (a b : Byte) : Byte := a ^^^ b

/-- Doubling: shift left by one, and XOR the reduction byte when bit 7 was set before (R102). The
mask to 8 bits is the width of the type. -/
def gfDouble (b : Byte) : Byte :=
  (b <<< 1) ^^^ (if b.getLsbD 7 then Config.reductionByte else 0x00)

/-- General multiplication: the XOR, over the set bits `k` of `b`, of `a` doubled `k` times, by the
loop of R104. -/
def gfMul (a b : Byte) : Byte :=
  ((List.range 8).foldl
    (fun (rp : Byte × Byte) k =>
      (if b.getLsbD k then rp.1 ^^^ rp.2 else rp.1, gfDouble rp.2))
    (0x00, a)).1

/-- The forward mix matrix FWD (R105). -/
def mixForward : Grid :=
  ⟨⟨0x02, 0x03, 0x01, 0x01⟩,
   ⟨0x01, 0x02, 0x03, 0x01⟩,
   ⟨0x01, 0x01, 0x02, 0x03⟩,
   ⟨0x03, 0x01, 0x01, 0x02⟩⟩

/-- The inverse mix matrix INV (R105). -/
def mixInverse : Grid :=
  ⟨⟨0x0E, 0x0B, 0x0D, 0x09⟩,
   ⟨0x09, 0x0E, 0x0B, 0x0D⟩,
   ⟨0x0D, 0x09, 0x0E, 0x0B⟩,
   ⟨0x0B, 0x0D, 0x09, 0x0E⟩⟩

/-- The column mix: each output byte is the XOR of the four products of one matrix row with the input
vector, all from the inputs (R106). -/
def mix (v : Quad) (inverse : Bool) : Quad :=
  let m := if inverse then mixInverse else mixForward
  Quad.ofFn fun i =>
    gfMul v.b0 (m.get i 0) ^^^ gfMul v.b1 (m.get i 1) ^^^
      gfMul v.b2 (m.get i 2) ^^^ gfMul v.b3 (m.get i 3)

end Sys2Proof.Machine
end

