-- ==== Sys2Proof/Machine/Schedule.lean ====
section
/-!
DEFINITION. The pure functions of the key schedule expander (spec 42_key_schedule.md R137 to R142).
A schedule is the list of its words, word `c` being column `c` of W (R10, R24).
-/

namespace Sys2Proof.Machine

/-- RotWord: rotate a word left by one position (R137). -/
def rotWord (x : Quad) : Quad := ⟨x.b1, x.b2, x.b3, x.b0⟩

/-- SubWord: the forward S-box on each byte (R138). -/
def subWord (x : Quad) : Quad := x.map sboxAt

/-- The round constant as a column: in the row-0 byte, the other three 0 (R139). -/
def rconColumn (i : Nat) : Quad := ⟨rconAt i, 0x00, 0x00, 0x00⟩

/-- Word `c` of a list of words; used only for `c` below its length. -/
def wordAt (ws : List Quad) (c : Nat) : Quad := ws.getD c ⟨0x00, 0x00, 0x00, 0x00⟩

/-- Seeding: word `c` is `[key[4c], key[4c+1], key[4c+2], key[4c+3]]`, for `c` below NK (R140). -/
def seedWords (nk : Nat) (key : List Byte) : List Quad :=
  (List.range nk).map fun c =>
    Quad.ofFn fun r => key.getD (r.val + 4 * c) 0x00

/-- The value XORed into word `idx - NK` to give word `idx`: the three branches of R141, in order. -/
def expandTerm (nk idx : Nat) (prev : Quad) : Quad :=
  if idx % nk = 0 then (subWord (rotWord prev)).xor (rconColumn (idx / nk - 1))
  else if 6 < nk ∧ idx % nk = 4 then subWord prev
  else prev

/-- Word `idx` of the schedule from the words before it (R141). -/
def nextWord (nk : Nat) (ws : List Quad) (idx : Nat) : Quad :=
  (wordAt ws (idx - nk)).xor (expandTerm nk idx (wordAt ws (idx - 1)))

/-- `expand_key(key)` for a key of 16, 24 or 32 bytes: the `4*(NR+1)` words of the schedule (R141;
90_conflicts.md C1: NK words are seeded and `idx` starts at NK). -/
def expandKey (key : List Byte) : List Quad :=
  let nk := key.length / 4
  let nr := nk + 6
  (List.range (4 * (nr + 1) - nk)).foldl
    (fun ws i => ws ++ [nextWord nk ws (nk + i)])
    (seedWords nk key)

/-- The round-key slice of round `rd`: `round_key(W, rd)[r][c] = W[r][4*rd + c]` (R142). -/
def roundKey (ws : List Quad) (rd : Nat) : Grid :=
  Grid.ofFn fun r c => (wordAt ws (4 * rd + c.val)).get r

end Sys2Proof.Machine
end

