-- ==== Sys2Proof/Machine/Transforms.lean ====
section
/-!
DEFINITION. The pure functions on grids: the transposer (spec 43_block_state.md R160, R161), the four
round transforms (44_round_transforms.md R180 to R183) and the full cipher routines
(45_cipher_pipeline.md R200, R201).
-/

namespace Sys2Proof.Machine

/-- `grid_of(f)`, for a list of exactly 16 bytes: `G[i][j] = f[i + 4*j]` (R160). -/
def gridOf (f : List Byte) : Grid :=
  Grid.ofFn fun i j => f.getD (i.val + 4 * j.val) 0x00

/-- `flat_of(G)`: `f[k] = G[k mod 4][k / 4]` for `k` in 0..15 (R161), that is, column by column. -/
def flatOf (g : Grid) : List Byte :=
  [g.get 0 0, g.get 1 0, g.get 2 0, g.get 3 0,
   g.get 0 1, g.get 1 1, g.get 2 1, g.get 3 1,
   g.get 0 2, g.get 1 2, g.get 2 2, g.get 3 2,
   g.get 0 3, g.get 1 3, g.get 2 3, g.get 3 3]

/-- SubBytes and its inverse: every byte through SBOX or INV_SBOX (R180). -/
def subBytes (g : Grid) (inverse : Bool) : Grid :=
  Grid.ofFn fun r c => if inverse then invSboxAt (g.get r c) else sboxAt (g.get r c)

/-- ShiftRows and its inverse: row `i` rotated left, or right, by `i` positions (R181). The sum and
difference of the column numbers are modulo 4. -/
def shiftRows (g : Grid) (inverse : Bool) : Grid :=
  Grid.ofFn fun i j => if inverse then g.get i (j - i) else g.get i (j + i)

/-- MixColumns and its inverse: `mix` on each column, output byte `i` back to row `i` (R182). -/
def mixColumns (g : Grid) (inverse : Bool) : Grid :=
  Grid.ofFn fun i j => (mix (g.col j) inverse).get i

/-- AddRoundKey: XOR with the slice of round `rd`, byte by byte (R183). -/
def addRoundKey (g : Grid) (ws : List Quad) (rd : Nat) : Grid :=
  Grid.ofFn fun r c => g.get r c ^^^ (roundKey ws rd).get r c

/-- One turn of the loop of `encrypt_block` (R200). -/
def encryptRound (ws : List Quad) (g : Grid) (rd : Nat) : Grid :=
  addRoundKey (mixColumns (shiftRows (subBytes g false) false) false) ws rd

/-- `encrypt_block(G, W, NR)`: the loop runs for `rd = 1, ..., NR-1` (R200). -/
def encryptBlock (g : Grid) (ws : List Quad) (nr : Nat) : Grid :=
  let looped := (List.range (nr - 1)).foldl (fun g k => encryptRound ws g (k + 1)) (addRoundKey g ws 0)
  addRoundKey (shiftRows (subBytes looped false) false) ws nr

/-- One turn of the loop of `decrypt_block`: AddRoundKey before inverse MixColumns (R201). -/
def decryptRound (ws : List Quad) (g : Grid) (rd : Nat) : Grid :=
  mixColumns (addRoundKey (subBytes (shiftRows g true) true) ws rd) true

/-- `decrypt_block(G, W, NR)`: the loop runs for `rd = NR-1, ..., 1` (R201). -/
def decryptBlock (g : Grid) (ws : List Quad) (nr : Nat) : Grid :=
  let looped := (List.range (nr - 1)).reverse.foldl (fun g k => decryptRound ws g (k + 1))
    (addRoundKey g ws nr)
  addRoundKey (subBytes (shiftRows looped true) true) ws 0

end Sys2Proof.Machine
end

