-- ==== Sys2Proof/Machine/Ops.lean ====
section
/-!
DEFINITION. The named operations every command is made of: the access primitives of the byte spaces
(spec 20_memory.md R52 to R54), reading and writing the key and schedule registers, giving a response
(30_encoding.md R78), raising an error (60_exceptions.md R262) and `ensure_schedule`
(42_key_schedule.md R144). An error enters no handler and saves nothing, so there is no return from
one (R263, R264).
-/

namespace Sys2Proof.Machine

/-- The three outcomes of a step, with this machine's reasons. -/
abbrev Result := Host.Outcome State Fault Refusal

/-! ### Byte spaces -/

/-- What an unlisted offset below the length of a space holds. -/
def Space.unlisted : Byte := 0x00

/-- The byte listed at an offset, or the unlisted one. -/
def cellsGet : List Host.Cell → Nat → Byte
  | [], _ => Space.unlisted
  | (x, b) :: t, a => if x = a then b else cellsGet t a

/-- The list with the byte at an offset replaced, in the canonical form: offsets rising, and no entry
for the byte an unlisted offset holds. -/
def cellsSet : List Host.Cell → Nat → Byte → List Host.Cell
  | [], a, v => if v = Space.unlisted then [] else [(a, v)]
  | (x, b) :: t, a, v =>
    if x < a then (x, b) :: cellsSet t a v
    else if x = a then (if v = Space.unlisted then t else (a, v) :: t)
    else if v = Space.unlisted then (x, b) :: t
    else (a, v) :: (x, b) :: t

/-- The offsets of a list of cells rise strictly, from a lower bound on. -/
def cellsRising : Nat → List Host.Cell → Bool
  | _, [] => true
  | lo, (x, _) :: t => decide (lo ≤ x) && cellsRising (x + 1) t

/-- The canonical form of a byte space: offsets strictly rising and below the length, no entry for the
unlisted byte, and a length of at most MAX_LEN (R50). -/
def Space.wf (m : Space) : Bool :=
  cellsRising 0 m.cells && m.cells.all (fun c => decide (c.1 < m.len) && decide (c.2 ≠ Space.unlisted)) &&
    decide (m.len ≤ Config.maxLen)

/-- The byte at an offset, none at or past the end. -/
def Space.get (m : Space) (a : Nat) : Option Byte :=
  if a < m.len then some (cellsGet m.cells a) else none

/-- `MemLen(space)` (R54). -/
def memLen (m : Space) : Nat := m.len

/-- `MemRead(space, addr, n)`: up to `n` bytes from `addr` on, fewer when the space ends first; offsets
are natural numbers and never wrap (R52). -/
def memRead (m : Space) (addr : Nat) : Nat → List Byte
  | 0 => []
  | n + 1 =>
    match m.get addr with
    | none => []
    | some b => b :: memRead m (addr + 1) n

/-- `MemWrite(space, addr, |v|, v)`: overwrites in place, the length unchanged; used only where the
bytes lie inside the space (R53). -/
def memWrite (m : Space) (addr : Nat) : List Byte → Space
  | [] => m
  | b :: t => memWrite { m with cells := cellsSet m.cells addr b } (addr + 1) t

/-- Bytes appended at the end (capability c of R51). -/
def memAppend (m : Space) (bytes : List Byte) : Space :=
  memWrite { m with len := m.len + bytes.length } m.len bytes

/-- The space cut to a length not above the current one (capability d of R51). -/
def memTruncate (m : Space) (n : Nat) : Space :=
  { len := n, cells := m.cells.filter fun c => c.1 < n }

/-- The space that holds exactly these bytes. -/
def Space.ofBytes (bytes : List Byte) : Space := memAppend Space.empty bytes

/-! ### The key and schedule registers -/

/-- The list of the values, none if one of them holds novalue. -/
def allSome {α : Type} : List (Option α) → Option (List α)
  | [] => some []
  | none :: _ => none
  | some a :: t => (allSome t).map (a :: ·)

/-- K written by KEYLD: the key bytes from index 0 on, novalue beyond them (R20, R145). -/
def keyRegister (key : List Byte) : Vector (Option Byte) 32 :=
  Vector.ofFn fun i => key[i.val]?

/-- W written by the expansion: the words of the schedule, novalue beyond them (R24, R144). -/
def scheduleRegister (ws : List Quad) : Vector (Option Quad) 60 :=
  Vector.ofFn fun c => ws[c.val]?

/-- W after KEYLD or reset: novalue in every column (R24, R145). -/
def scheduleNone : Vector (Option Quad) 60 := Vector.replicate 60 none

/-- `K[0..KLEN)`, none if a byte of it holds novalue. -/
def readKey (z : KeySize) (s : State) : Option (List Byte) :=
  allSome (s.K.toList.take z.klen)

/-- The valid columns of W, none if one of them holds novalue. -/
def readSchedule (z : KeySize) (s : State) : Option (List Quad) :=
  allSome (s.W.toList.take z.columns)

/-! ### Responses and errors -/

/-- The code of an error (R251). -/
def Err.code : Err → BitVec 8
  | .keySizeError => 0x10
  | .stateSizeError => 0x11
  | .paddingCorruption => 0x12
  | .unsupportedInputType => 0x13
  | .illegalCommand => 0x20
  | .notReady => 0x21
  | .rangeError => 0x22
  | .boundsError => 0x23

/-- ST of a completed command (R251). -/
def stOk : BitVec 8 := 0x00

/-- ST of a LOAD that found fewer than 16 bytes (R251, R260). -/
def stEod : BitVec 8 := 0x01

/-- The response as the 40-bit word `RESP[39:0]` (R78). -/
def Response.word (r : Response) : BitVec 40 := r.st ++ r.data

/-- The command answers with this status and data (R78). -/
def answer (st : BitVec 8) (data : BitVec 32) (s : State) : State :=
  { s with responses := s.responses ++ [⟨st, data⟩] }

/-- `respond OK(data)` (R13). -/
def respondOk (data : BitVec 32) (s : State) : State := answer stOk data s

/-- `respond EOD` (R13, R260): not recorded in ERR. -/
def respondEod (s : State) : State := answer stEod 0x00000000 s

/-- `raise E`: ERR takes the code of the first error since reset, the response carries the code with
DATA 0, and nothing else is written (R262). -/
def raise (e : Err) (s : State) : State :=
  answer e.code 0x00000000 { s with ERR := if s.ERR = 0x00 then e.code else s.ERR }

/-! ### Reading a register whose flag is 1 -/

/-- Goes on with the length of the loaded Key. -/
def withKey (s : State) (k : KeySize → Result) : Result :=
  match s.KLEN with
  | none => .fault .keyNovalue
  | some z => k z

/-- Goes on with the Block State. -/
def withBlock (s : State) (k : Grid → Result) : Result :=
  match s.S with
  | none => .fault .blockNovalue
  | some g => k g

/-- `ensure_schedule()`: nothing when SV = 1, else the expansion of K into W and SV set (R144). None
when a byte of K that it reads holds novalue. -/
def ensureSchedule (z : KeySize) (s : State) : Option State :=
  if s.SV then some s
  else (readKey z s).map fun key => { s with W := scheduleRegister (expandKey key), SV := true }

/-- Runs `ensure_schedule()` and goes on with the state after it and the schedule in W. -/
def withSchedule (z : KeySize) (s : State) (k : State → List Quad → Result) : Result :=
  match ensureSchedule z s with
  | none => .fault .keyNovalue
  | some s1 =>
    match readSchedule z s1 with
    | none => .fault .scheduleNovalue
    | some ws => k s1 ws

/-- The commands that replace S by a function of S: NotReady without a Block State, else S is replaced
as a whole (R184). -/
def transformBlock (f : Grid → Grid) (s : State) : Result :=
  if blockMissing s then .next (raise .notReady s)
  else withBlock s fun g => .next (respondOk 0x00000000 { s with S := some (f g) })

/-- The commands that replace S by a function of S and the schedule: NotReady without a Key or a Block
State, RangeError when `tooLarge` says so of NR, then `ensure_schedule`, then S (R191, R202, R203). -/
def cipherBlock (tooLarge : Nat → Bool) (f : Grid → List Quad → Nat → Grid) (s : State) : Result :=
  if keyOrBlockMissing s then .next (raise .notReady s)
  else withKey s fun z =>
    if tooLarge z.nr then .next (raise .rangeError s)
    else withSchedule z s fun s1 ws =>
      withBlock s1 fun g => .next (respondOk 0x00000000 { s1 with S := some (f g ws z.nr) })

end Sys2Proof.Machine
end

