-- ==== Sys2Proof/Machine/BlockCommands.lean ====
section
/-!
DEFINITION. The block state commands (spec 43_block_state.md R163 to R166).
-/

namespace Sys2Proof.Machine

/-- LOAD off: end of data below 16 bytes, and then S is novalue and BV 0; else S is the grid of the 16
bytes and BV 1 (R163). -/
def execLoad (off : BitVec 32) (s : State) : Result :=
  let f := memRead s.BUF (numberOf off) Config.blockBytes
  if f.length < Config.blockBytes then
    .next (respondEod { s with S := none, BV := false })
  else
    .next (respondOk 0x00000000 { s with S := some (gridOf f), BV := true })

/-- DUMP off: NotReady without a Block State, BoundsError when the 16 bytes do not lie inside BUF, else S
is written there (R164). -/
def execDump (off : BitVec 32) (s : State) : Result :=
  if blockMissing s then .next (raise .notReady s)
  else if memLen s.BUF < numberOf off + Config.blockBytes then .next (raise .boundsError s)
  else withBlock s fun g =>
    .next (respondOk 0x00000000 { s with BUF := memWrite s.BUF (numberOf off) (flatOf g) })

/-- CONS off, len: StateSizeError unless `len` is 16 and 16 bytes are obtained; else S is their grid
(R165, R253). The pseudocode of R165 tests only the bytes obtained; that a `len` other than 16 is an
error whatever BUF holds is what its corner cases and R253 say (DEDUCED, log entry 9). -/
def execCons (off : BitVec 32) (len : BitVec 8) (s : State) : Result :=
  let f := memRead s.BUF (numberOf off) (numberOf len)
  if numberOf len ≠ Config.blockBytes ∨ f.length ≠ Config.blockBytes then .next (raise .stateSizeError s)
  else .next (respondOk 0x00000000 { s with S := some (gridOf f), BV := true })

/-- RDROW row: NotReady without a Block State, else the row of S (R166). -/
def execRdrow (row : BitVec 8) (s : State) : Result :=
  if blockMissing s then .next (raise .notReady s)
  else withBlock s fun g => .next (respondOk (packQuad (g.row (rowOf row))) s)

end Sys2Proof.Machine
end

