-- ==== Sys2Proof/Machine/CipherCommands.lean ====
section
/-!
DEFINITION. The full cipher commands (spec 45_cipher_pipeline.md R202, R203).
-/

namespace Sys2Proof.Machine

/-- ENCRYPT (R202). -/
def execEncrypt (s : State) : Result := cipherBlock (fun _ => false) encryptBlock s

/-- DECRYPT (R203). -/
def execDecrypt (s : State) : Result := cipherBlock (fun _ => false) decryptBlock s

end Sys2Proof.Machine
end

