-- ==== Sys2Proof/Machine/FieldCommands.lean ====
section
/-!
DEFINITION. The commands of the field arithmetic unit (spec 40_gf_arithmetic.md R107 to R111): functions
of their operands, with no state read or written but the response.
-/

namespace Sys2Proof.Machine

/-- GFADD a, b (R107). -/
def execGfadd (a b : Byte) (s : State) : Result :=
  .next (respondOk (byteData (gfAdd a b)) s)

/-- GFDBL a (R108). -/
def execGfdbl (a : Byte) (s : State) : Result :=
  .next (respondOk (byteData (gfDouble a)) s)

/-- GFMUL a, b (R109). -/
def execGfmul (a b : Byte) (s : State) : Result :=
  .next (respondOk (byteData (gfMul a b)) s)

/-- GFMIX v (R110). -/
def execGfmix (v : BitVec 32) (s : State) : Result :=
  .next (respondOk (packQuad (mix (unpackQuad v) false)) s)

/-- GFIMIX v (R111). -/
def execGfimix (v : BitVec 32) (s : State) : Result :=
  .next (respondOk (packQuad (mix (unpackQuad v) true)) s)

end Sys2Proof.Machine
end

