-- ==== Sys2Proof/Machine/KeyCommands.lean ====
section
/-!
DEFINITION. The key commands (spec 42_key_schedule.md R145 to R147).
-/

namespace Sys2Proof.Machine

/-- KEYLD: KeySizeError unless KSRC has 16, 24 or 32 bytes; else the Key is those bytes and its schedule
is not yet computed (R145). -/
def execKeyld (s : State) : Result :=
  match KeySize.ofLength (memLen s.KSRC) with
  | none => .next (raise .keySizeError s)
  | some z =>
    .next (respondOk 0x00000000
      { s with
        K := keyRegister (memRead s.KSRC 0 (memLen s.KSRC))
        KLEN := some z
        KV := true
        SV := false
        W := scheduleNone })

/-- KEXP: NotReady without a Key, else `ensure_schedule` (R146). -/
def execKexp (s : State) : Result :=
  if keyMissing s then .next (raise .notReady s)
  else withKey s fun z =>
    match ensureSchedule z s with
    | none => .fault .keyNovalue
    | some s1 => .next (respondOk 0x00000000 s1)

/-- RDRK round, row: NotReady without a Key, RangeError above NR, then `ensure_schedule`, then the row of
the slice (R147). -/
def execRdrk (round row : BitVec 8) (s : State) : Result :=
  if keyMissing s then .next (raise .notReady s)
  else withKey s fun z =>
    if z.nr < numberOf round then .next (raise .rangeError s)
    else withSchedule z s fun s1 ws =>
      .next (respondOk (packQuad ((roundKey ws (numberOf round)).row (rowOf row))) s1)

end Sys2Proof.Machine
end

