-- ==== Sys2Proof/Machine/RoundCommands.lean ====
section
/-!
DEFINITION. The round transform commands (spec 44_round_transforms.md R185 to R191).
-/

namespace Sys2Proof.Machine

/-- SUBBYTES (R185). -/
def execSubbytes (s : State) : Result := transformBlock (fun g => subBytes g false) s

/-- ISUBBYTES (R186). -/
def execIsubbytes (s : State) : Result := transformBlock (fun g => subBytes g true) s

/-- SHIFTROWS (R187). -/
def execShiftrows (s : State) : Result := transformBlock (fun g => shiftRows g false) s

/-- ISHIFTROWS (R188). -/
def execIshiftrows (s : State) : Result := transformBlock (fun g => shiftRows g true) s

/-- MIXCOLS (R189). -/
def execMixcols (s : State) : Result := transformBlock (fun g => mixColumns g false) s

/-- IMIXCOLS (R190). -/
def execImixcols (s : State) : Result := transformBlock (fun g => mixColumns g true) s

/-- ADDRK round: RangeError when `round > NR` (R191). -/
def execAddrk (round : BitVec 8) (s : State) : Result :=
  cipherBlock (fun nr => nr < numberOf round) (fun g ws _ => addRoundKey g ws (numberOf round)) s

end Sys2Proof.Machine
end

