-- ==== Sys2Proof/Machine/SystemCommands.lean ====
section
/-!
DEFINITION. The system command (spec 46_system_commands.md R215).
-/

namespace Sys2Proof.Machine

/-- RDCSR n: 0 reads STATUS, 1 reads KINFO, which is 0 without a Key (R215). -/
def execRdcsr (n : BitVec 8) (s : State) : Result :=
  if csrOf n = false then .next (respondOk (statusWord s) s)
  else if keyMissing s then .next (respondOk 0x00000000 s)
  else withKey s fun z => .next (respondOk (kinfoWord z) s)

end Sys2Proof.Machine
end

