-- ==== Sys2Proof/Machine/TableCommands.lean ====
section
/-!
DEFINITION. The table lookup commands (spec 41_substitution_tables.md R124 to R126).
-/

namespace Sys2Proof.Machine

/-- SBOX a (R124). -/
def execSbox (a : Byte) (s : State) : Result :=
  .next (respondOk (byteData (sboxAt a)) s)

/-- ISBOX a (R125). -/
def execIsbox (a : Byte) (s : State) : Result :=
  .next (respondOk (byteData (invSboxAt a)) s)

/-- RCON i: RangeError above index 9 (R126). -/
def execRcon (i : BitVec 8) (s : State) : Result :=
  if Config.rconLen ≤ numberOf i then .next (raise .rangeError s)
  else .next (respondOk (byteData (rconAt (numberOf i))) s)

end Sys2Proof.Machine
end

