-- ==== Sys2Proof/Machine/Dispatch.lean ====
section
/-!
DEFINITION. Which meaning each command has (spec 30_encoding.md R80, last column).
-/

namespace Sys2Proof.Machine

def exec (i : Instr) (s : State) : Host.Outcome State Fault Refusal :=
  match i with
  | .gfadd a b => Sys2Proof.Machine.execGfadd a b s
  | .gfdbl a => Sys2Proof.Machine.execGfdbl a s
  | .gfmul a b => Sys2Proof.Machine.execGfmul a b s
  | .gfmix v => Sys2Proof.Machine.execGfmix v s
  | .gfimix v => Sys2Proof.Machine.execGfimix v s
  | .sbox a => Sys2Proof.Machine.execSbox a s
  | .isbox a => Sys2Proof.Machine.execIsbox a s
  | .rcon x => Sys2Proof.Machine.execRcon x s
  | .keyld => Sys2Proof.Machine.execKeyld s
  | .kexp => Sys2Proof.Machine.execKexp s
  | .rdrk round row => Sys2Proof.Machine.execRdrk round row s
  | .load off => Sys2Proof.Machine.execLoad off s
  | .dump off => Sys2Proof.Machine.execDump off s
  | .cons off len => Sys2Proof.Machine.execCons off len s
  | .rdrow row => Sys2Proof.Machine.execRdrow row s
  | .subbytes => Sys2Proof.Machine.execSubbytes s
  | .isubbytes => Sys2Proof.Machine.execIsubbytes s
  | .shiftrows => Sys2Proof.Machine.execShiftrows s
  | .ishiftrows => Sys2Proof.Machine.execIshiftrows s
  | .mixcols => Sys2Proof.Machine.execMixcols s
  | .imixcols => Sys2Proof.Machine.execImixcols s
  | .addrk round => Sys2Proof.Machine.execAddrk round s
  | .encrypt => Sys2Proof.Machine.execEncrypt s
  | .decrypt => Sys2Proof.Machine.execDecrypt s
  | .rdcsr n => Sys2Proof.Machine.execRdcsr n s

end Sys2Proof.Machine
end

