-- ==== Sys2Proof/Machine/HostMoves.lean ====
section
/-!
DEFINITION. Issuing a command word to the CORE (spec 30_encoding.md R81, R86), the reset the HOST asserts
(70_reset_and_hazards.md R286), the HOST's other moves (49_host_padding_and_streaming.md R220), and the
procedures it runs: the padding codec (R221, R222) and the block streaming driver (R224, R225).
-/

namespace Sys2Proof.Machine

/-- The CORE is handed one command word: it decodes and executes it, or raises IllegalCommand (R81,
R86, R256). -/
def issue (w : BitVec 64) (s : State) : Result :=
  match decode w with
  | .ok i => exec i s
  | .error _ => .next (raise .illegalCommand s)

/-- Reset: the registers of the CORE at their reset values; BUF, KSRC and what the HOST holds are not
touched (R286). -/
def resetCore (s : State) : State :=
  { s with
    S := State.reset.S
    BV := State.reset.BV
    K := State.reset.K
    KLEN := State.reset.KLEN
    KV := State.reset.KV
    W := State.reset.W
    SV := State.reset.SV
    ERR := State.reset.ERR }

/-- The HOST gets a result back. -/
def note (r : HostResult) (s : State) : State :=
  { s with hostResults := s.hostResults ++ [r] }

/-- The HOST goes on with these moves before those it already has pending. -/
def goOn (ms : List Move) (s : State) : State := { s with host := ms ++ s.host }

/-- ST of the latest response. -/
def latestSt (s : State) : Option (BitVec 8) := s.responses.getLast?.map (·.st)

/-- Appending bytes to BUF, where the length stays within MAX_LEN. -/
def hostAppend (bytes : List Byte) (s : State) : Result :=
  if Config.maxLen < memLen s.BUF + bytes.length then .refused .bufAboveMaxLen
  else .next { s with BUF := memAppend s.BUF bytes }

/-- The bytes `append_padding` adds to a sequence of length `len`: 0x01 and then `15 - (len mod 16)`
bytes 0x00 (R221). -/
def paddingBytes (len : Nat) : List Byte :=
  0x01 :: List.replicate (15 - len % 16) 0x00

/-- `append_padding()` on the bytes of BUF (R221). -/
def appendPadding (m : Space) : Space := memAppend m (paddingBytes (memLen m))

/-- The backward scan of `strip_padding`, at index `i`: the offset of the last 0x01 below `i`, none if
there is none; any other byte is passed over (R222, R223, R236). -/
def stripScan (m : Space) : Nat → Option Nat
  | 0 => none
  | i + 1 => if memRead m i 1 = [0x01] then some i else stripScan m i

/-- `strip_padding()` on the bytes of BUF; none is PaddingCorruption (R222, R223). -/
def stripPadding (m : Space) : Option Space :=
  (stripScan m (memLen m)).map fun i => memTruncate m i

/-- `r = issue(...)` in a stream procedure: the next stage on OK, and any other response aborts the
procedure and is handed on unchanged (R229). -/
def streamIssue (i : Instr) (onOk : State → State) (onEod : Option (State → State)) (s : State) : Result :=
  match issue (encode i) s with
  | .next s1 =>
    match latestSt s1, onEod with
    | some st, none => .next (if st = stOk then onOk s1 else note (.failed st) s1)
    | some st, some eod =>
      .next (if st = stEod then eod s1 else if st = stOk then onOk s1 else note (.failed st) s1)
    | none, _ => .next s1
  | .fault r => .fault r
  | .refused r => .refused r

/-- What a stream procedure does when LOAD reports the end of the data: the encrypt path returns
(R224), the decrypt path strips the padding (R225). -/
def streamEnd : Direction → State → State
  | .encrypt, s => note .returned s
  | .decrypt, s => goOn [.stripPadding] s

/-- The cipher command of a direction. -/
def streamCipherInstr : Direction → Instr
  | .encrypt => .encrypt
  | .decrypt => .decrypt

/-- A command of a stream procedure with an offset operand, which must be below 2^32 (R60, R85). -/
def streamAt (off : Nat) (s : State) (k : BitVec 32 → State → Result) : Result :=
  if off < 2 ^ 32 then k (BitVec.ofNat 32 off) s else .refused .offsetHasNoEncoding

/-- One move of the HOST, already taken from the moves it has pending (R220). -/
def makeMove (m : Move) (s : State) : Result :=
  match m with
  | .command w => issue w s
  | .readBuf off n => .next (note (.bytes (memRead s.BUF off n)) s)
  | .writeBuf off bytes =>
    if memLen s.BUF < off + bytes.length then .refused .hostWriteOutsideBuf
    else .next { s with BUF := memWrite s.BUF off bytes }
  | .appendBuf bytes => hostAppend bytes s
  | .truncateBuf len =>
    if memLen s.BUF < len then .refused .hostTruncateAboveLength
    else .next { s with BUF := memTruncate s.BUF len }
  | .lengthBuf => .next (note (.length (memLen s.BUF)) s)
  | .setKsrc bytes =>
    if Config.maxLen < bytes.length then .refused .ksrcAboveMaxLen
    else .next { s with KSRC := Space.ofBytes bytes }
  | .reset => .next (resetCore s)
  | .appendPadding =>
    if Config.maxLen < memLen (appendPadding s.BUF) then .refused .bufAboveMaxLen
    else .next { s with BUF := appendPadding s.BUF }
  | .stripPadding =>
    match stripPadding s.BUF with
    | none => .next (note (.failed Err.paddingCorruption.code) s)
    | some b => .next (note .returned { s with BUF := b })
  | .encryptStream => .next (goOn [.appendPadding, .streamLoad .encrypt 0] s)
  | .decryptStream => .next (goOn [.streamLoad .decrypt 0] s)
  | .streamLoad d off =>
    streamAt off s fun o => streamIssue (.load o) (goOn [.streamCipher d off]) (some (streamEnd d))
  | .streamCipher d off => streamIssue (streamCipherInstr d) (goOn [.streamDump d off]) none s
  | .streamDump d off =>
    streamAt off s fun o =>
      streamIssue (.dump o) (goOn [.streamLoad d (off + Config.blockBytes)]) none

end Sys2Proof.Machine
end

