-- ==== Sys2Proof/Machine/Step.lean ====
section
/-!
DEFINITION. One step of the machine: the HOST makes its next move. The CORE has no step of its own
(spec 00_scope.md R6, 10_state.md R30).
-/

namespace Sys2Proof.Machine

/-- One step: the next move of the HOST is made. With no move pending nothing changes: the CORE waits
for the HOST (R6, R30, R286). -/
def step (s : State) : Host.Outcome State Fault Refusal :=
  match s.host with
  | [] => .next s
  | m :: rest => makeMove m { s with host := rest }

/-- The state with one more move of the HOST, before the others: issuing the command word whose bits
are `w`, bits from `nbits` on zero. The next step decodes and executes exactly it. -/
def State.withFetchWord (s : State) (nbits w : Nat) : State :=
  { s with host := .command (BitVec.ofNat 64 (w % 2 ^ nbits)) :: s.host }

end Sys2Proof.Machine
end

