-- ==== Sys2Proof/Safety.lean ====
section
/-!
DEFINITION. The terms claims are stated in: the invariant of the machine (spec 10_state.md R39), what it
is to hold a Key, a schedule or a Block State, the errors of a command in order (60_exceptions.md
R275), and sequences of commands (10_state.md R30).
-/

namespace Sys2Proof.Machine

/-! ### What the registers hold -/

/-- A Key of size `z` with these bytes is loaded: KV = 1, KLEN is its size, K holds its bytes and
novalue beyond them (R20, R21, R23). -/
def State.HoldsKey (s : State) (z : KeySize) (key : List Byte) : Prop :=
  s.KV = true ∧ s.KLEN = some z ∧ key.length = z.klen ∧ s.K = keyRegister key

/-- A Block State is held: BV = 1 and S is the grid (R26, R27). -/
def State.HoldsBlock (s : State) (g : Grid) : Prop := s.BV = true ∧ s.S = some g

/-- W agrees with SV for the key: the schedule of the key when SV = 1 (R24, R25, R39 c). -/
def State.ScheduleIs (s : State) (key : List Byte) : Prop :=
  s.SV = true → s.W = scheduleRegister (expandKey key)

/-! ### The invariant -/

/-- Key registers: a Key of a legal size is held, or KV = 0 and K and KLEN are novalue (R37, R39 b). -/
def State.KeyOk (s : State) : Prop :=
  (∃ z key, s.HoldsKey z key) ∨ (s.KV = false ∧ s.KLEN = none ∧ s.K = Vector.replicate 32 none)

/-- Schedule registers: SV = 1 implies KV = 1 and W is the schedule of the Key in K; SV = 0 and W is
novalue otherwise (R37, R39 a, c). -/
def State.ScheduleOk (s : State) : Prop :=
  (s.SV = true ∧ ∃ z key, s.HoldsKey z key ∧ s.W = scheduleRegister (expandKey key)) ∨
    (s.SV = false ∧ s.W = Vector.replicate 60 none)

/-- Block registers: BV = 1 exactly when all 16 bytes of S are defined (R37, R39 d). -/
def State.BlockOk (s : State) : Prop := s.BV = s.S.isSome

/-- The codes ERR can hold: 0x00, or an error a command of the CORE raises (R28, R251, R254, R255). -/
def recordableCodes : List (BitVec 8) := [0x00, 0x10, 0x11, 0x20, 0x21, 0x22, 0x23]

/-- The values ST can have (R251, R254, R255). -/
def responseCodes : List (BitVec 8) := [0x00, 0x01, 0x10, 0x11, 0x20, 0x21, 0x22, 0x23]

/-- A response of the CORE: a status of the table, and DATA 0 unless the command completed (R78). -/
def Response.Ok (r : Response) : Prop :=
  r.st ∈ responseCodes ∧ (r.st ≠ 0x00 → r.data = 0x00000000)

/-- The invariant: R39 (a) to (d), the values of ERR and of the responses, and the canonical form of the
two byte spaces, none longer than MAX_LEN (R50). -/
def State.Inv (s : State) : Prop :=
  s.KeyOk ∧ s.ScheduleOk ∧ s.BlockOk ∧ s.ERR ∈ recordableCodes ∧
    (∀ r ∈ s.responses, r.Ok) ∧ s.BUF.wf = true ∧ s.KSRC.wf = true

/-! ### Errors -/

/-- Commands that need a Key (R257). -/
def needsKey : Instr → Bool
  | .kexp | .rdrk _ _ | .addrk _ | .encrypt | .decrypt => true
  | .gfadd _ _ | .gfdbl _ | .gfmul _ _ | .gfmix _ | .gfimix _ | .sbox _ | .isbox _ | .rcon _
  | .keyld | .load _ | .dump _ | .cons _ _ | .rdrow _ | .subbytes | .isubbytes | .shiftrows
  | .ishiftrows | .mixcols | .imixcols | .rdcsr _ => false

/-- Commands that need a Block State (R257). -/
def needsBlock : Instr → Bool
  | .dump _ | .rdrow _ | .subbytes | .isubbytes | .shiftrows | .ishiftrows | .mixcols | .imixcols
  | .addrk _ | .encrypt | .decrypt => true
  | .gfadd _ _ | .gfdbl _ | .gfmul _ _ | .gfmix _ | .gfimix _ | .sbox _ | .isbox _ | .rcon _
  | .keyld | .kexp | .rdrk _ _ | .load _ | .cons _ _ | .rdcsr _ => false

/-- Commands that write S (R26, R40). -/
def writesBlock : Instr → Bool
  | .load _ | .cons _ _ | .subbytes | .isubbytes | .shiftrows | .ishiftrows | .mixcols
  | .imixcols | .addrk _ | .encrypt | .decrypt => true
  | .gfadd _ _ | .gfdbl _ | .gfmul _ _ | .gfmix _ | .gfimix _ | .sbox _ | .isbox _ | .rcon _
  | .keyld | .kexp | .rdrk _ _ | .dump _ | .rdrow _ | .rdcsr _ => false

/-- NotReady: a needed Key or Block State is missing (R257, column 2 of R275). -/
def notReadyWhen (i : Instr) (s : State) : Bool :=
  (needsKey i && !s.KV) || (needsBlock i && !s.BV)

/-- The round is above NR of the loaded Key (R258). -/
def roundTooLarge (round : BitVec 8) (klen : Option KeySize) : Bool :=
  match klen with
  | some z => decide (z.nr < round.toNat)
  | none => false

/-- RangeError: column 3 of R275 (R258). -/
def rangeErrorWhen (i : Instr) (s : State) : Bool :=
  match i with
  | .rcon x => decide (9 < x.toNat)
  | .rdrk round _ => roundTooLarge round s.KLEN
  | .addrk round => roundTooLarge round s.KLEN
  | .gfadd _ _ | .gfdbl _ | .gfmul _ _ | .gfmix _ | .gfimix _ | .sbox _ | .isbox _ | .keyld
  | .kexp | .load _ | .dump _ | .cons _ _ | .rdrow _ | .subbytes | .isubbytes | .shiftrows
  | .ishiftrows | .mixcols | .imixcols | .encrypt | .decrypt | .rdcsr _ => false

/-- The error of the checks that consult a byte space: column 4 of R275 (R252, R253, R259). -/
def memoryErrorOf (i : Instr) (s : State) : Option (BitVec 8) :=
  match i with
  | .keyld => if s.KSRC.len = 16 ∨ s.KSRC.len = 24 ∨ s.KSRC.len = 32 then none else some 0x10
  | .cons off len =>
    if len.toNat = 16 ∧ off.toNat + 16 ≤ s.BUF.len then none else some 0x11
  | .dump off => if s.BUF.len < off.toNat + 16 then some 0x23 else none
  | .gfadd _ _ | .gfdbl _ | .gfmul _ _ | .gfmix _ | .gfimix _ | .sbox _ | .isbox _ | .rcon _
  | .kexp | .rdrk _ _ | .load _ | .rdrow _ | .subbytes | .isubbytes | .shiftrows | .ishiftrows
  | .mixcols | .imixcols | .addrk _ | .encrypt | .decrypt | .rdcsr _ => none

/-- The first error of a command that decodes, in the order of R261. -/
def firstError (i : Instr) (s : State) : Option (BitVec 8) :=
  if notReadyWhen i s then some 0x21
  else if rangeErrorWhen i s then some 0x22
  else memoryErrorOf i s

/-- The state after an error with this code: ERR keeps the first code since reset, and the response
carries the code with DATA 0 (R262). -/
def State.afterError (s : State) (code : BitVec 8) : State :=
  { s with
    ERR := if s.ERR = 0x00 then code else s.ERR
    responses := s.responses ++ [⟨code, 0x00000000⟩] }

/-- The state after a command that completed with this DATA and changed no register (R13, R78). -/
def State.afterOk (s : State) (data : BitVec 32) : State :=
  { s with responses := s.responses ++ [⟨0x00, data⟩] }

/-! ### Sequences of commands -/

/-- The commands one after another, stopping where one does not answer a next state (R30). -/
def execAll : List Instr → State → Result
  | [], s => .next s
  | i :: rest, s =>
    match exec i s with
    | .next t => execAll rest t
    | .fault r => .fault r
    | .refused r => .refused r

/-- The single-transform commands ENCRYPT is equal to (R206). -/
def encryptCommands (nr : Nat) : List Instr :=
  [.addrk 0] ++
    (List.range (nr - 1)).flatMap (fun k =>
      [.subbytes, .shiftrows, .mixcols, .addrk (BitVec.ofNat 8 (k + 1))]) ++
    [.subbytes, .shiftrows, .addrk (BitVec.ofNat 8 nr)]

/-- The single-transform commands DECRYPT is equal to (R206). -/
def decryptCommands (nr : Nat) : List Instr :=
  [.addrk (BitVec.ofNat 8 nr)] ++
    (List.range (nr - 1)).reverse.flatMap (fun k =>
      [.ishiftrows, .isubbytes, .addrk (BitVec.ofNat 8 (k + 1)), .imixcols]) ++
    [.ishiftrows, .isubbytes, .addrk 0]

/-- The outcome with ERR left out of the next state. -/
def withoutErr : Result → Result
  | .next t => .next { t with ERR := 0x00 }
  | .fault r => .fault r
  | .refused r => .refused r

end Sys2Proof.Machine
end

