-- ==== Sys2Proof/Certificates/Slice0/Obligations.lean ====
section
/-!
DEFINITION. The statements for the provers. A statement of the form `exec i s = .next { s with … }` says
what the command writes and, by the record it ends in, that every other register, BUF, KSRC and what
the HOST holds are unchanged. What the HOST holds (`responses`, `host`, `hostResults`) stands in State by
the model's choice, and so does how a step takes a move from `host` (DESIGN CHOICE, log entry 2).
-/

open Sys2Proof Sys2Proof.Machine

/-! ### Reset and the moves of the HOST -/

/-- R36: every piece of state after reset. BUF, KSRC and what the HOST holds are not part of the CORE
and not spoken of here. -/
def Obligations.ResetStateHoldsNovalue : Prop :=
  State.reset.KV = false ∧ State.reset.SV = false ∧ State.reset.BV = false ∧
  State.reset.ERR = 0x00 ∧ (∀ i : Fin 32, State.reset.K[i] = none) ∧ State.reset.KLEN = none ∧
  (∀ c : Fin 60, State.reset.W[c] = none) ∧ State.reset.S = none ∧
  exec (.rdcsr 0) State.reset = .next (State.reset.afterOk 0x00000000) ∧
  exec (.rdcsr 1) State.reset = .next (State.reset.afterOk 0x00000000)

/-- R286: reset puts every register of the CORE at its reset value and touches neither BUF nor KSRC;
reset in the reset state changes nothing. That it also leaves the responses, the results of the HOST and
the other pending moves as they are is the model's choice (DESIGN CHOICE, log entry 2). -/
def Obligations.ResetMoveRestoresTheCore : Prop :=
  ∀ (s : State) (rest : List Move), s.host = .reset :: rest →
    step s = .next
      { s with
        KV := false, SV := false, BV := false, ERR := 0x00, K := Vector.replicate 32 none,
        KLEN := none, W := Vector.replicate 60 none, S := none, host := rest }

/-- The model's choice (log entry 2), from R6 and R30: with no move of the HOST pending, nothing changes. -/
def Obligations.NothingChangesWithoutAMove : Prop :=
  ∀ s : State, s.host = [] → step s = .next s

/-- R86: a step whose next move issues a word that decodes is `exec` of the decoded command. That the move
is taken from those pending in State is the model's choice (DESIGN CHOICE, log entry 2). -/
def Obligations.StepRunsTheDecodedCommand : Prop :=
  ∀ (s : State) (w : BitVec 64) (rest : List Move) (i : Instr),
    s.host = .command w :: rest → decode w = .ok i → step s = exec i { s with host := rest }

/-- R256: a word that matches no row of the opcode map raises IllegalCommand, whatever the state: only
ERR is written, and the response is 0x20 with DATA 0. A word that matches a row never does. How the move
and the response stand in State is the model's choice (DESIGN CHOICE, log entry 2). -/
def Obligations.IllegalWordsRaiseIllegalCommand : Prop :=
  ∀ (s : State) (w : BitVec 64) (rest : List Move), s.host = .command w :: rest →
    ((∀ r ∈ opcodeTable, r.hits w = false) →
      step s = .next
        { s with
          host := rest
          ERR := if s.ERR = 0x00 then 0x20 else s.ERR
          responses := s.responses ++ [⟨0x20, 0x00000000⟩] }) ∧
    ((∃ r ∈ opcodeTable, r.hits w = true) →
      ∀ t, step s = .next t → ∀ r, t.responses = s.responses ++ [r] → r.st ≠ 0x20)

/-- The effect of each move of the HOST on BUF and KSRC, byte by byte (R51, R220): a write overwrites in
place, an append lengthens, a truncate cuts, and KSRC takes any sequence up to MAX_LEN. That what the HOST
gets back is kept in `hostResults`, and the move taken from `host`, is the model's choice (DESIGN CHOICE,
log entry 2). -/
def Obligations.HostMovesHaveTheirEffect : Prop :=
  ∀ (s : State) (rest : List Move), s.BUF.wf = true →
    (∀ off bytes, s.host = .writeBuf off bytes :: rest → off + bytes.length ≤ s.BUF.len →
      ∃ b : Space, step s = .next { s with host := rest, BUF := b } ∧ b.len = s.BUF.len ∧
        ∀ a, b.get a = if off ≤ a ∧ a < off + bytes.length then bytes[a - off]? else s.BUF.get a) ∧
    (∀ bytes, s.host = .appendBuf bytes :: rest → s.BUF.len + bytes.length ≤ 2 ^ 32 - 1 →
      ∃ b : Space, step s = .next { s with host := rest, BUF := b } ∧
        b.len = s.BUF.len + bytes.length ∧
        ∀ a, b.get a = if a < s.BUF.len then s.BUF.get a else bytes[a - s.BUF.len]?) ∧
    (∀ n, s.host = .truncateBuf n :: rest → n ≤ s.BUF.len →
      ∃ b : Space, step s = .next { s with host := rest, BUF := b } ∧ b.len = n ∧
        ∀ a, b.get a = if a < n then s.BUF.get a else none) ∧
    (∀ bytes, s.host = .setKsrc bytes :: rest → bytes.length ≤ 2 ^ 32 - 1 →
      ∃ m : Space, step s = .next { s with host := rest, KSRC := m } ∧ m.len = bytes.length ∧
        ∀ a, m.get a = bytes[a]?) ∧
    (∀ off n, s.host = .readBuf off n :: rest →
      ∃ l : List Byte, step s = .next
          { s with host := rest, hostResults := s.hostResults ++ [.bytes l] } ∧
        ∀ k, l[k]? = if k < n then s.BUF.get (off + k) else none) ∧
    (s.host = .lengthBuf :: rest →
      step s = .next { s with host := rest, hostResults := s.hostResults ++ [.length s.BUF.len] })

/-! ### Encoding -/

/-- R80, R86: for every word, the decoder gives a command exactly when one row of `opcode_table.json`
matches, then exactly one row matches, and it is the row of that command's mnemonic. -/
def Obligations.DecodeFollowsTheOpcodeTable : Prop :=
  ∀ w : BitVec 64,
    match decode w with
    | .ok i => (opcodeTable.filter (·.hits w)).map (·.mnemonic) = [i.mnemonic]
    | .error _ => opcodeTable.filter (·.hits w) = []

/-- Decoding the word of a well-formed command gives the command back, with every operand at every
value its field admits (R77, R80, R86). -/
def Obligations.DecodeEncodeIsIdentity : Prop :=
  ∀ i : Instr, i.wf = true → decode (encode i) = .ok i

/-- R82: every word is exactly one command or illegal: a word that decodes is the word of the command it
decodes to, and that command is well-formed. -/
def Obligations.EncodeDecodeIsIdentity : Prop :=
  ∀ (w : BitVec 64) (i : Instr), decode w = .ok i → i.wf = true ∧ encode i = w

/-- Worked words of 30_encoding.md section 8, read as the spec reads them. -/
def Obligations.WorkedWordsDecode : Prop :=
  decode 0x1200578300000000 = .ok (.gfmul 0x57 0x83) ∧
  decode 0x130100008E4DA1BC = .ok (.gfimix 0x8E4DA1BC) ∧
  decode 0x2001ED0000000000 = .ok (.isbox 0xED) ∧
  decode 0x32000A0300000000 = .ok (.rdrk 10 3) ∧
  decode 0x4200100000000000 = .ok (.cons 0 16) ∧
  decode 0x53000E0000000000 = .ok (.addrk 14) ∧
  decode 0x7000010000000000 = .ok (.rdcsr 1)

/-! ### Field arithmetic -/

/-- R101, R107: GFADD answers the XOR of its operands and writes nothing else. -/
def Obligations.GfaddAnswersTheXor : Prop :=
  ∀ (a b : Byte) (s : State),
    exec (.gfadd a b) s = .next (s.afterOk (BitVec.ofNat 32 (a.toNat ^^^ b.toNat)))

/-- R102, R108: GFDBL answers `((a << 1) ^ (0x1B if a[7] == 1 else 0x00)) & 0xFF`, computed on numbers. -/
def Obligations.GfdblAnswersTheDouble : Prop :=
  ∀ (a : Byte) (s : State),
    exec (.gfdbl a) s = .next (s.afterOk (BitVec.ofNat 32
      (((a.toNat <<< 1) ^^^ (if a.toNat.testBit 7 then 0x1B else 0x00)) &&& 0xFF)))

/-- R104, R109: GFMUL answers the XOR, over every `k` in 0..7 with `b[k] == 1`, of `a` doubled `k`
times. -/
def Obligations.GfmulAnswersTheProduct : Prop :=
  ∀ (a b : Byte) (s : State),
    exec (.gfmul a b) s = .next (s.afterOk (BitVec.setWidth 32
      ((List.range 8).foldr
        (fun k r => (if b.getLsbD k then Nat.iterate gfDouble k a else 0x00) ^^^ r) (0x00 : Byte))))

/-- R103: the products by the seven multipliers of the mix matrices are the compositions of doubling and
XOR that the rule lists. -/
def Obligations.MatrixMultipliersAreDoublingChains : Prop :=
  ∀ b : Byte,
    let d1 := gfDouble b
    let d2 := gfDouble d1
    let d3 := gfDouble d2
    gfMul b 0x01 = b ∧ gfMul b 0x02 = d1 ∧ gfMul b 0x03 = d1 ^^^ b ∧ gfMul b 0x09 = d3 ^^^ b ∧
    gfMul b 0x0B = d3 ^^^ d1 ^^^ b ∧ gfMul b 0x0D = d3 ^^^ d2 ^^^ b ∧ gfMul b 0x0E = d3 ^^^ d2 ^^^ d1

/-- R112: doubling is linear over XOR, for all bytes. -/
def Obligations.DoublingIsLinear : Prop :=
  ∀ a b : Byte, gfDouble a ^^^ gfDouble b = gfDouble (a ^^^ b)

/-- The field laws R104 names (from general knowledge there): multiplication is commutative, and
distributes over XOR in both arguments. -/
def Obligations.MultiplicationIsCommutativeAndDistributes : Prop :=
  ∀ a b c : Byte, gfMul a b = gfMul b a ∧ gfMul (a ^^^ b) c = gfMul a c ^^^ gfMul b c ∧
    gfMul c (a ^^^ b) = gfMul c a ^^^ gfMul c b

/-- R106, R110: GFMIX answers the four products of the forward matrix with the packed vector; nothing
else is written. -/
def Obligations.GfmixAnswersTheForwardMix : Prop :=
  ∀ (v0 v1 v2 v3 : Byte) (s : State),
    exec (.gfmix (v0 ++ v1 ++ v2 ++ v3)) s = .next (s.afterOk
      ((gfMul v0 2 ^^^ gfMul v1 3 ^^^ v2 ^^^ v3) ++ (v0 ^^^ gfMul v1 2 ^^^ gfMul v2 3 ^^^ v3) ++
       (v0 ^^^ v1 ^^^ gfMul v2 2 ^^^ gfMul v3 3) ++ (gfMul v0 3 ^^^ v1 ^^^ v2 ^^^ gfMul v3 2)))

/-- R106, R111: GFIMIX answers the four products of the inverse matrix with the packed vector. -/
def Obligations.GfimixAnswersTheInverseMix : Prop :=
  ∀ (v0 v1 v2 v3 : Byte) (s : State),
    exec (.gfimix (v0 ++ v1 ++ v2 ++ v3)) s = .next (s.afterOk
      ((gfMul v0 14 ^^^ gfMul v1 11 ^^^ gfMul v2 13 ^^^ gfMul v3 9) ++
       (gfMul v0 9 ^^^ gfMul v1 14 ^^^ gfMul v2 11 ^^^ gfMul v3 13) ++
       (gfMul v0 13 ^^^ gfMul v1 9 ^^^ gfMul v2 14 ^^^ gfMul v3 11) ++
       (gfMul v0 11 ^^^ gfMul v1 13 ^^^ gfMul v2 9 ^^^ gfMul v3 14)))

/-- R111: GFIMIX of the DATA of a GFMIX gives back the GFMIX operand, and the other way round. -/
def Obligations.GfimixUndoesGfmix : Prop :=
  ∀ (v : BitVec 32) (s : State),
    (∃ o, exec (.gfmix v) s = .next (s.afterOk o) ∧ exec (.gfimix o) s = .next (s.afterOk v)) ∧
    (∃ o, exec (.gfimix v) s = .next (s.afterOk o) ∧ exec (.gfmix o) s = .next (s.afterOk v))

/-! ### Tables -/

/-- R124, R125: SBOX and ISBOX answer entry `a` of the table in index order, and each undoes the
other. -/
def Obligations.SboxCommandsReadInverseTables : Prop :=
  ∀ (a : Byte) (s : State), ∃ b c : Byte,
    (sboxRowsLow ++ sboxRowsHigh).flatten[a.toNat]? = some b ∧
    (invSboxRowsLow ++ invSboxRowsHigh).flatten[a.toNat]? = some c ∧
    exec (.sbox a) s = .next (s.afterOk (b.setWidth 32)) ∧
    exec (.isbox a) s = .next (s.afterOk (c.setWidth 32)) ∧
    exec (.isbox b) s = .next (s.afterOk (a.setWidth 32)) ∧
    exec (.sbox c) s = .next (s.afterOk (a.setWidth 32))

/-- R123, R126: RCON answers 0x01 doubled `i` times for `i` up to 9, and raises RangeError above. -/
def Obligations.RconAnswersDoublingsOfOne : Prop :=
  ∀ (i : BitVec 8) (s : State),
    (i.toNat ≤ 9 →
      exec (.rcon i) s = .next (s.afterOk ((Nat.iterate gfDouble i.toNat (0x01 : Byte)).setWidth 32))) ∧
    (9 < i.toNat → exec (.rcon i) s = .next (s.afterError 0x22))

/-! ### Key and key schedule -/

/-- R145: KEYLD with a KSRC of 16, 24 or 32 bytes makes its bytes the Key, K beyond them novalue, and
forgets the schedule; with any other length it raises KeySizeError and nothing else changes. -/
def Obligations.KeyldConstructsTheKey : Prop :=
  ∀ s : State,
    (∀ z : KeySize, s.KSRC.len = z.klen →
      exec .keyld s = .next
        { s with
          K := Vector.ofFn (fun i => s.KSRC.get i.val), KLEN := some z, KV := true, SV := false
          W := Vector.replicate 60 none
          responses := s.responses ++ [⟨0x00, 0x00000000⟩] }) ∧
    (s.KSRC.len ≠ 16 → s.KSRC.len ≠ 24 → s.KSRC.len ≠ 32 →
      exec .keyld s = .next (s.afterError 0x10))

/-- R144, R146: KEXP raises NotReady without a Key; with SV = 1 it changes nothing; with SV = 0 it puts
the expansion of the Key into W, the columns beyond novalue, and sets SV. -/
def Obligations.KexpComputesTheScheduleOnce : Prop :=
  ∀ s : State,
    (s.KV = false → exec .kexp s = .next (s.afterError 0x21)) ∧
    (∀ z key, s.HoldsKey z key → s.SV = true → exec .kexp s = .next (s.afterOk 0x00000000)) ∧
    (∀ z key, s.HoldsKey z key → s.SV = false →
      exec .kexp s = .next
        { s with
          W := Vector.ofFn (fun c => (expandKey key)[c.val]?), SV := true
          responses := s.responses ++ [⟨0x00, 0x00000000⟩] })

/-- R140, R141: the schedule has `4*(NR+1)` words; the first NK are the key bytes column by column;
every later one is the word NK before it XOR the term of the three branches. -/
def Obligations.ExpansionFollowsTheRecurrence : Prop :=
  ∀ (z : KeySize) (key : List Byte), key.length = z.klen →
    (expandKey key).length = 4 * (z.nr + 1) ∧
    (∀ c < z.nk, ∃ x : Quad, (expandKey key)[c]? = some x ∧
      ∀ r : Fin 4, key[r.val + 4 * c]? = some (x.get r)) ∧
    ∀ idx, z.nk ≤ idx → idx < 4 * (z.nr + 1) →
      ∃ back prev : Quad, (expandKey key)[idx - z.nk]? = some back ∧
        (expandKey key)[idx - 1]? = some prev ∧
        (expandKey key)[idx]? = some (back.xor
          (if idx % z.nk = 0 then
            Quad.xor ⟨sboxAt prev.b1, sboxAt prev.b2, sboxAt prev.b3, sboxAt prev.b0⟩
              ⟨Nat.iterate gfDouble (idx / z.nk - 1) 0x01, 0x00, 0x00, 0x00⟩
          else if 6 < z.nk ∧ idx % z.nk = 4 then
            ⟨sboxAt prev.b0, sboxAt prev.b1, sboxAt prev.b2, sboxAt prev.b3⟩
          else prev))

/-- R147: RDRK answers row `row` of the slice of round `round`, after `ensure_schedule`; without a Key it
raises NotReady, and above NR RangeError, the schedule not expanded. -/
def Obligations.RdrkAnswersTheSliceRow : Prop :=
  ∀ (round row : BitVec 8) (s : State),
    (s.KV = false → exec (.rdrk round row) s = .next (s.afterError 0x21)) ∧
    (∀ z key, s.HoldsKey z key → z.nr < round.toNat →
      exec (.rdrk round row) s = .next (s.afterError 0x22)) ∧
    (∀ z key, s.HoldsKey z key → s.ScheduleIs key → round.toNat ≤ z.nr → row.toNat < 4 →
      ∃ w0 w1 w2 w3 : Quad,
        (expandKey key)[4 * round.toNat]? = some w0 ∧ (expandKey key)[4 * round.toNat + 1]? = some w1 ∧
        (expandKey key)[4 * round.toNat + 2]? = some w2 ∧
        (expandKey key)[4 * round.toNat + 3]? = some w3 ∧
        exec (.rdrk round row) s = .next
          { s with
            W := scheduleRegister (expandKey key), SV := true
            responses := s.responses ++
              [⟨0x00, w0.get (Fin.ofNat 4 row.toNat) ++ w1.get (Fin.ofNat 4 row.toNat) ++
                w2.get (Fin.ofNat 4 row.toNat) ++ w3.get (Fin.ofNat 4 row.toNat)⟩] })

/-! ### Block state -/

/-- R163: LOAD with 16 bytes at its offset makes S their grid, `S[i][j]` the byte at `off + i + 4*j`, and
sets BV. -/
def Obligations.LoadTakesTheBlock : Prop :=
  ∀ (off : BitVec 32) (s : State) (g : Grid),
    (∀ i j : Fin 4, s.BUF.get (off.toNat + (i.val + 4 * j.val)) = some (g.get i j)) →
    exec (.load off) s = .next
      { s with S := some g, BV := true, responses := s.responses ++ [⟨0x00, 0x00000000⟩] }

/-- R163, R260: LOAD with fewer than 16 bytes at its offset reports end of data, S becomes novalue and BV
0, and ERR is not written; with 16 bytes there it does not. -/
def Obligations.LoadReportsEndOfData : Prop :=
  ∀ (off : BitVec 32) (s : State),
    (s.BUF.len < off.toNat + 16 →
      exec (.load off) s = .next
        { s with S := none, BV := false, responses := s.responses ++ [⟨0x01, 0x00000000⟩] }) ∧
    (off.toNat + 16 ≤ s.BUF.len →
      ∃ g : Grid, exec (.load off) s = .next
        { s with S := some g, BV := true, responses := s.responses ++ [⟨0x00, 0x00000000⟩] })

/-- R164: DUMP with a Block State and its window inside BUF writes `S[i][j]` to offset `off + i + 4*j`;
every byte of BUF outside the 16 and the length are unchanged, and so are S and BV. -/
def Obligations.DumpWritesTheBlock : Prop :=
  ∀ (off : BitVec 32) (s : State) (g : Grid), s.BUF.wf = true → s.HoldsBlock g →
    off.toNat + 16 ≤ s.BUF.len →
    ∃ b : Space,
      exec (.dump off) s = .next
        { s with BUF := b, responses := s.responses ++ [⟨0x00, 0x00000000⟩] } ∧
      b.len = s.BUF.len ∧
      (∀ i j : Fin 4, b.get (off.toNat + (i.val + 4 * j.val)) = some (g.get i j)) ∧
      ∀ a, (a < off.toNat ∨ off.toNat + 16 ≤ a) → b.get a = s.BUF.get a

/-- R164, R259: DUMP without a Block State raises NotReady, and with one BoundsError when
`off + 16 > MemLen(BUF)`; nothing is written to BUF. -/
def Obligations.DumpOutOfBoundsWritesNothing : Prop :=
  ∀ (off : BitVec 32) (s : State),
    (s.BV = false → exec (.dump off) s = .next (s.afterError 0x21)) ∧
    (s.BV = true → s.BUF.len < off.toNat + 16 → exec (.dump off) s = .next (s.afterError 0x23))

/-- R165, R253: CONS with a length of 16 and 16 bytes at its offset is a successful LOAD; in every other
case it raises StateSizeError and S and BV stay. For a length above 16 that meets exactly 16 bytes this is
the model's choice between two sentences of R165 (DEDUCED, log entry 9). -/
def Obligations.ConsNeedsExactlySixteenBytes : Prop :=
  ∀ (off : BitVec 32) (len : BitVec 8) (s : State),
    (∀ g : Grid, len = 16 →
      (∀ i j : Fin 4, s.BUF.get (off.toNat + (i.val + 4 * j.val)) = some (g.get i j)) →
      exec (.cons off len) s = .next
        { s with S := some g, BV := true, responses := s.responses ++ [⟨0x00, 0x00000000⟩] }) ∧
    ((len ≠ 16 ∨ s.BUF.len < off.toNat + 16) →
      exec (.cons off len) s = .next (s.afterError 0x11))

/-- R166: RDROW answers the four bytes of the row of S, the byte of column 0 in bits 31:24. -/
def Obligations.RdrowAnswersTheRow : Prop :=
  ∀ (row : BitVec 8) (s : State) (g : Grid), s.HoldsBlock g → row.toNat < 4 →
    exec (.rdrow row) s = .next (s.afterOk
      (g.get (Fin.ofNat 4 row.toNat) 0 ++ g.get (Fin.ofNat 4 row.toNat) 1 ++
       g.get (Fin.ofNat 4 row.toNat) 2 ++ g.get (Fin.ofNat 4 row.toNat) 3))

/-- R164: after a LOAD that answered OK, an immediate DUMP at the same offset leaves BUF unchanged. -/
def Obligations.LoadThenDumpLeavesBuf : Prop :=
  ∀ (off : BitVec 32) (s : State), s.BUF.wf = true → off.toNat + 16 ≤ s.BUF.len →
    ∃ t u : State, execAll [.load off] s = .next t ∧ execAll [.load off, .dump off] s = .next u ∧
      u.BUF = s.BUF ∧ u.S = t.S ∧ u.BV = true

/-! ### Round transforms -/

/-- R180, R185, R186: SUBBYTES and ISUBBYTES replace every byte of S by its table entry and write nothing
else. -/
def Obligations.SubstitutionsReplaceEveryByte : Prop :=
  ∀ (s : State) (g : Grid), s.HoldsBlock g →
    ∃ f i : Grid,
      exec .subbytes s = .next
        { s with S := some f, responses := s.responses ++ [⟨0x00, 0x00000000⟩] } ∧
      exec .isubbytes s = .next
        { s with S := some i, responses := s.responses ++ [⟨0x00, 0x00000000⟩] } ∧
      ∀ r c : Fin 4, f.get r c = sboxAt (g.get r c) ∧ i.get r c = invSboxAt (g.get r c)

/-- R181, R187, R188: SHIFTROWS rotates row `i` left by `i` positions and ISHIFTROWS right, row by row as
the rule lists them. -/
def Obligations.ShiftsRotateTheRows : Prop :=
  ∀ (s : State) (g : Grid), s.HoldsBlock g →
    exec .shiftrows s = .next
      { s with
        S := some ⟨g.r0, ⟨g.r1.b1, g.r1.b2, g.r1.b3, g.r1.b0⟩, ⟨g.r2.b2, g.r2.b3, g.r2.b0, g.r2.b1⟩,
          ⟨g.r3.b3, g.r3.b0, g.r3.b1, g.r3.b2⟩⟩
        responses := s.responses ++ [⟨0x00, 0x00000000⟩] } ∧
    exec .ishiftrows s = .next
      { s with
        S := some ⟨g.r0, ⟨g.r1.b3, g.r1.b0, g.r1.b1, g.r1.b2⟩, ⟨g.r2.b2, g.r2.b3, g.r2.b0, g.r2.b1⟩,
          ⟨g.r3.b1, g.r3.b2, g.r3.b3, g.r3.b0⟩⟩
        responses := s.responses ++ [⟨0x00, 0x00000000⟩] }

/-- R182, R189, R190: MIXCOLS and IMIXCOLS apply `mix` to each column, output byte `i` to row `i`. -/
def Obligations.MixesWorkOnEachColumn : Prop :=
  ∀ (s : State) (g : Grid), s.HoldsBlock g →
    ∃ f i : Grid,
      exec .mixcols s = .next
        { s with S := some f, responses := s.responses ++ [⟨0x00, 0x00000000⟩] } ∧
      exec .imixcols s = .next
        { s with S := some i, responses := s.responses ++ [⟨0x00, 0x00000000⟩] } ∧
      ∀ j : Fin 4, f.col j = mix (g.col j) false ∧ i.col j = mix (g.col j) true

/-- R183, R191: ADDRK XORs `W[r][4*round + c]` into `S[r][c]` after `ensure_schedule`; above NR it raises
RangeError, the schedule not expanded. -/
def Obligations.AddrkXorsTheSlice : Prop :=
  ∀ (round : BitVec 8) (s : State) (z : KeySize) (key : List Byte) (g : Grid),
    s.HoldsKey z key → s.HoldsBlock g →
    (z.nr < round.toNat → exec (.addrk round) s = .next (s.afterError 0x22)) ∧
    (round.toNat ≤ z.nr → s.ScheduleIs key →
      ∃ f : Grid,
        exec (.addrk round) s = .next
          { s with
            S := some f, W := scheduleRegister (expandKey key), SV := true
            responses := s.responses ++ [⟨0x00, 0x00000000⟩] } ∧
        ∀ r c : Fin 4, ∃ x : Quad, (expandKey key)[4 * round.toNat + c.val]? = some x ∧
          f.get r c = g.get r c ^^^ x.get r)

/-- R180 to R183: each transform is undone by its inverse form, and AddRoundKey by itself. -/
def Obligations.TransformsAreUndone : Prop :=
  ∀ (g : Grid) (ws : List Quad) (rd : Nat) (inverse : Bool),
    subBytes (subBytes g inverse) (!inverse) = g ∧ shiftRows (shiftRows g inverse) (!inverse) = g ∧
    mixColumns (mixColumns g inverse) (!inverse) = g ∧ addRoundKey (addRoundKey g ws rd) ws rd = g

/-! ### The cipher -/

/-- R202, R203: with a Key and a Block State, ENCRYPT and DECRYPT replace S by the routine's result under
the schedule of the Key, the schedule being in W afterwards with SV = 1; nothing else changes. -/
def Obligations.CipherCommandsTransformTheBlock : Prop :=
  ∀ (s : State) (z : KeySize) (key : List Byte) (g : Grid),
    s.HoldsKey z key → s.ScheduleIs key → s.HoldsBlock g →
    exec .encrypt s = .next
      { s with
        S := some (encryptBlock g (expandKey key) z.nr), W := scheduleRegister (expandKey key), SV := true
        responses := s.responses ++ [⟨0x00, 0x00000000⟩] } ∧
    exec .decrypt s = .next
      { s with
        S := some (decryptBlock g (expandKey key) z.nr), W := scheduleRegister (expandKey key), SV := true
        responses := s.responses ++ [⟨0x00, 0x00000000⟩] }

/-- R204: `decrypt_block` undoes `encrypt_block` and the other way round, for every key and block, as
functions, so that `encrypt_block` permutes the blocks; and on the commands: ENCRYPT then DECRYPT, and
DECRYPT then ENCRYPT, restore S. -/
def Obligations.DecryptUndoesEncrypt : Prop :=
  (∀ (z : KeySize) (key : List Byte), key.length = z.klen →
    (∀ g, decryptBlock (encryptBlock g (expandKey key) z.nr) (expandKey key) z.nr = g) ∧
    (∀ g, encryptBlock (decryptBlock g (expandKey key) z.nr) (expandKey key) z.nr = g) ∧
    Function.Bijective fun g => encryptBlock g (expandKey key) z.nr) ∧
  ∀ (s : State) (z : KeySize) (key : List Byte) (g : Grid),
    s.HoldsKey z key → s.ScheduleIs key → s.HoldsBlock g →
    (∃ t, execAll [.encrypt, .decrypt] s = .next t ∧ t.S = some g ∧ t.BUF = s.BUF) ∧
    (∃ t, execAll [.decrypt, .encrypt] s = .next t ∧ t.S = some g ∧ t.BUF = s.BUF)

/-- R206: ENCRYPT and DECRYPT are equal, in every register, in BUF, KSRC and what the HOST holds, to the
sequences of single-transform commands; only the responses differ. -/
def Obligations.CipherCommandsEqualTheirTransforms : Prop :=
  ∀ (s : State) (z : KeySize) (key : List Byte) (g : Grid),
    s.HoldsKey z key → s.ScheduleIs key → s.HoldsBlock g →
    (∃ t u, exec .encrypt s = .next t ∧ execAll (encryptCommands z.nr) s = .next u ∧
      { u with responses := t.responses } = t) ∧
    (∃ t u, exec .decrypt s = .next t ∧ execAll (decryptCommands z.nr) s = .next u ∧
      { u with responses := t.responses } = t)

/-! ### Status -/

/-- R32, R215: RDCSR 0 answers KV, SV and BV in bits 0, 1 and 2, ERR in bits 15:8, and 0 in every other
bit, and changes nothing; ERR is not cleared. -/
def Obligations.RdcsrZeroAnswersStatus : Prop :=
  ∀ s : State, ∃ d : BitVec 32, exec (.rdcsr 0) s = .next (s.afterOk d) ∧
    d.getLsbD 0 = s.KV ∧ d.getLsbD 1 = s.SV ∧ d.getLsbD 2 = s.BV ∧ d.extractLsb' 3 5 = 0 ∧
    d.extractLsb' 8 8 = s.ERR ∧ d.extractLsb' 16 16 = 0

/-- R33, R215: RDCSR 1 answers 0 without a Key, and the three values of the rule for the three key
sizes. -/
def Obligations.RdcsrOneAnswersKinfo : Prop :=
  ∀ s : State,
    (s.KV = false → exec (.rdcsr 1) s = .next (s.afterOk 0x00000000)) ∧
    (s.KV = true → s.KLEN = some .bytes16 → exec (.rdcsr 1) s = .next (s.afterOk 0x00800A04)) ∧
    (s.KV = true → s.KLEN = some .bytes24 → exec (.rdcsr 1) s = .next (s.afterOk 0x00C00C06)) ∧
    (s.KV = true → s.KLEN = some .bytes32 → exec (.rdcsr 1) s = .next (s.afterOk 0x01000E08))

/-! ### Errors -/

/-- R275, R261, R262: in a state that meets the invariant, a command whose row of the table names an error
raises the first one that applies and changes nothing but ERR, and a command with none completes, or,
for LOAD alone, reports end of data. The row of CONS is read as log entry 9 says. -/
def Obligations.ErrorsFollowTheTable : Prop :=
  ∀ (i : Instr) (s : State), s.Inv →
    match firstError i s with
    | some code => exec i s = .next (s.afterError code)
    | none => ∃ (t : State) (r : Response), exec i s = .next t ∧ t.responses = s.responses ++ [r] ∧
        (r.st = 0x00 ∨ (r.st = 0x01 ∧ r.data = 0 ∧ ∃ off, i = .load off)) ∧ t.ERR = s.ERR

/-- R257: NotReady is answered exactly when a command needs a Key and KV = 0, or needs a Block State and
BV = 0, and then no state changes except ERR. -/
def Obligations.NotReadyExactlyWhenMissing : Prop :=
  ∀ (i : Instr) (s : State),
    (notReadyWhen i s = true → exec i s = .next (s.afterError 0x21)) ∧
    (notReadyWhen i s = false → ∀ t, exec i s = .next t →
      ∀ r, t.responses = s.responses ++ [r] → r.st ≠ 0x21)

/-- R78: every command produces exactly one response, with a status of the table, and with DATA 0 unless
it completed. -/
def Obligations.OneResponsePerCommand : Prop :=
  ∀ (i : Instr) (s t : State), exec i s = .next t →
    ∃ r : Response, t.responses = s.responses ++ [r] ∧ r.Ok

/-- R39 (f), R262: a command whose response carries an error code changes nothing but ERR. -/
def Obligations.ErrorsChangeOnlyErr : Prop :=
  ∀ (i : Instr) (s t : State) (r : Response), exec i s = .next t →
    t.responses = s.responses ++ [r] → r.st ≠ 0x00 → r.st ≠ 0x01 →
    { t with ERR := s.ERR, responses := s.responses } = s ∧
      t.ERR = (if s.ERR = 0x00 then r.st else s.ERR)

/-- R28: no command's result depends on ERR: with any other value in ERR, the outcome is the same but for
ERR itself. RDCSR 0, which reads ERR, is the one command left out. -/
def Obligations.NoResultDependsOnErr : Prop :=
  ∀ (i : Instr) (s : State) (e : BitVec 8), (∀ n, i = .rdcsr n → n.getLsbD 0 = true) →
    withoutErr (exec i { s with ERR := e }) = withoutErr (exec i s)

/-! ### What commands leave alone -/

/-- R40: which commands write K, KLEN and KV (KEYLD), W and SV (KEYLD and the five users of the schedule), S
(LOAD, CONS, the transforms, ENCRYPT, DECRYPT), BV (LOAD, CONS) and BUF (DUMP). No command writes KSRC,
changes the length of BUF, or touches the pending moves and the results of the HOST (which stand in State
by DESIGN CHOICE, log entry 2). -/
def Obligations.CommandsWriteOnlyTheirRegisters : Prop :=
  ∀ (i : Instr) (s t : State), exec i s = .next t →
    (i ≠ .keyld → t.K = s.K ∧ t.KLEN = s.KLEN ∧ t.KV = s.KV) ∧
    (i ≠ .keyld → needsKey i = false → t.W = s.W ∧ t.SV = s.SV) ∧
    ((∀ off, i ≠ .load off) → (∀ off len, i ≠ .cons off len) → t.BV = s.BV) ∧
    (writesBlock i = false → t.S = s.S) ∧
    ((∀ off, i ≠ .dump off) → t.BUF = s.BUF) ∧
    t.BUF.len = s.BUF.len ∧ t.KSRC = s.KSRC ∧ t.host = s.host ∧ t.hostResults = s.hostResults

/-- R25, R144: once the schedule of the Key is in W it is never computed again: a command other than KEYLD
in a state with SV = 1 leaves W and SV as they are. -/
def Obligations.ScheduleIsComputedAtMostOnce : Prop :=
  ∀ (i : Instr) (s t : State), exec i s = .next t → i ≠ .keyld → s.SV = true →
    t.W = s.W ∧ t.SV = true

/-! ### Invariants of the machine -/

/-- The reset state meets the invariant (R36, R39). -/
def Obligations.ResetMeetsTheInvariant : Prop := State.reset.Inv

/-- R39 (a) to (d): every step keeps the invariant: the registers agree with their valid flags, W is the
schedule of the Key, ERR and the responses hold codes of the table, and BUF and KSRC keep their
canonical form. -/
def Obligations.StepKeepsTheInvariant : Prop :=
  ∀ s t : State, s.Inv → step s = .next t → t.Inv

/-- R299: every command finishes and responds: in a state that meets the invariant, a step that issues any
word at all answers a next state. That the move is taken from those pending is the model's choice (DESIGN
CHOICE, log entry 2). -/
def Obligations.EveryCommandFinishes : Prop :=
  ∀ (s : State) (w : BitVec 64) (rest : List Move), s.Inv → s.host = .command w :: rest →
    ∃ (t : State) (r : Response), step s = .next t ∧ t.responses = s.responses ++ [r] ∧ t.host = rest

/-- R39 (e): ERR, once not 0, never changes until reset. -/
def Obligations.ErrIsStickyUntilReset : Prop :=
  ∀ s t : State, step s = .next t → s.ERR ≠ 0x00 → (∀ rest, s.host ≠ .reset :: rest) → t.ERR = s.ERR

/-- R23: no step changes K, KLEN or KV but a reset, and a KEYLD. -/
def Obligations.KeyChangesOnlyByKeyldOrReset : Prop :=
  ∀ s t : State, step s = .next t →
    (t.K = s.K ∧ t.KLEN = s.KLEN ∧ t.KV = s.KV) ∨
    (∃ rest, s.host = .reset :: rest) ∨ (∃ w rest, s.host = .command w :: rest ∧ decode w = .ok .keyld)

/-! ### The padding codec and the block streaming driver -/

/-- R52: MemRead gives the bytes from `addr` up to the end of the range or of the space, whichever comes
first. -/
def Obligations.MemReadStopsAtTheEnd : Prop :=
  ∀ (m : Space) (addr n : Nat),
    (memRead m addr n).length = min n (m.len - addr) ∧
    ∀ k < min n (m.len - addr), (memRead m addr n)[k]? = m.get (addr + k)

/-- R221: `append_padding` appends 0x01 and then zeros up to the next multiple of 16 strictly above the
length; every byte before is unchanged. -/
def Obligations.PaddingReachesTheNextMultiple : Prop :=
  ∀ m : Space, m.wf = true →
    (appendPadding m).len % 16 = 0 ∧ m.len < (appendPadding m).len ∧ (appendPadding m).len ≤ m.len + 16 ∧
    (∀ a < m.len, (appendPadding m).get a = m.get a) ∧ (appendPadding m).get m.len = some 0x01 ∧
    ∀ a, m.len < a → a < (appendPadding m).len → (appendPadding m).get a = some 0x00

/-- R233: stripping what was appended gives the bytes back, for every byte sequence. -/
def Obligations.StripUndoesAppend : Prop :=
  ∀ m : Space, m.wf = true → stripPadding (appendPadding m) = some m

/-- R222, R223, R236: `strip_padding` fails exactly when BUF holds no 0x01, and else truncates BUF to the
offset of the last one. -/
def Obligations.StripTruncatesAtTheLastMarker : Prop :=
  ∀ m : Space, m.wf = true →
    (stripPadding m = none ↔ ∀ a, m.get a ≠ some 0x01) ∧
    ∀ n, stripPadding m = some n →
      m.get n.len = some 0x01 ∧ (∀ a, n.len < a → m.get a ≠ some 0x01) ∧
      ∀ a, n.get a = if a < n.len then m.get a else none

/-- R224, R225, R235: with a Key loaded and a length that leaves room for the padding, `encrypt_stream`
issues `3*m + 1` commands for `m` padded blocks, and `decrypt_stream` after it restores BUF exactly. The
numbers of steps are the model's choice: a procedure is a move, the padding codec is one step and each
command of a stream one more, beside the step that begins the procedure (DESIGN CHOICE, log entry 6); that
the moves and results stand in State is log entry 2. -/
def Obligations.DecryptStreamUndoesEncryptStream : Prop :=
  ∀ (s : State), s.Inv → s.KV = true → s.BUF.len ≤ 2 ^ 32 - 17 →
    s.host = [.encryptStream, .decryptStream] →
    ∃ t u : State,
      core.run (2 + (3 * (s.BUF.len / 16 + 1) + 1)) s = .next t ∧
      t.host = [.decryptStream] ∧ t.BUF.len = 16 * (s.BUF.len / 16 + 1) ∧
      t.responses.length = s.responses.length + (3 * (s.BUF.len / 16 + 1) + 1) ∧
      core.run (1 + (3 * (s.BUF.len / 16 + 1) + 1) + 1) t = .next u ∧
      u.host = [] ∧ u.BUF = s.BUF ∧ u.hostResults = s.hostResults ++ [.returned, .returned]
end

