-- ==== Sys2Proof/Laws/Encoding.lean ====
section
/-!
SUPPORT. The laws of the command word: its fields and its bits, and what a row of the opcode table asks of
each field (spec 30_encoding.md R75, R80).
-/

namespace Sys2Proof

/-- Which field each bit of a word comes from (R75). -/
theorem wordOf_getLsbD (f : Fields) (j : Nat) : (wordOf f).getLsbD j =
    if j < 32 then f.imm.getLsbD j else if j < 40 then f.b.getLsbD (j - 32)
    else if j < 48 then f.a.getLsbD (j - 40) else if j < 49 then f.inv.getLsbD (j - 48)
    else if j < 56 then f.rsv.getLsbD (j - 49) else f.opc.getLsbD (j - 56) := by
  show BitVec.getLsbD (w := 8 + 7 + 1 + 8 + 8 + 32) (f.opc ++ f.rsv ++ f.inv ++ f.a ++ f.b ++ f.imm) j = _
  simp only [BitVec.getLsbD_append]
  split
  · rfl
  repeat' split
  all_goals first
    | omega
    | simp only [Nat.sub_sub]

/-- The fields of a word made of fields. -/
theorem fieldsOf_wordOf (f : Fields) : fieldsOf (wordOf f) = f := by
  obtain ⟨opc, rsv, inv, a, b, imm⟩ := f
  simp only [fieldsOf, Fields.mk.injEq]
  refine ⟨?_, ?_, ?_, ?_, ?_, ?_⟩
  all_goals
    apply BitVec.eq_of_getLsbD_eq
    intro i hi
    rw [BitVec.getLsbD_extractLsb', wordOf_getLsbD]
    simp only [hi, decide_true, Bool.true_and]
  · simp only [show ¬ (56 + i < 32) by omega, show ¬ (56 + i < 40) by omega, show ¬ (56 + i < 48) by omega, show ¬ (56 + i < 49) by omega, show ¬ (56 + i < 56) by omega, if_false, Nat.add_sub_cancel_left]
  · simp only [show ¬ (49 + i < 32) by omega, show ¬ (49 + i < 40) by omega, show ¬ (49 + i < 48) by omega, show ¬ (49 + i < 49) by omega, show (49 + i < 56) by omega, if_false, if_true, Nat.add_sub_cancel_left]
  · simp only [show ¬ (48 + i < 32) by omega, show ¬ (48 + i < 40) by omega, show ¬ (48 + i < 48) by omega, show (48 + i < 49) by omega, if_false, if_true, Nat.add_sub_cancel_left]
  · simp only [show ¬ (40 + i < 32) by omega, show ¬ (40 + i < 40) by omega, show (40 + i < 48) by omega, if_false, if_true, Nat.add_sub_cancel_left]
  · simp only [show ¬ (32 + i < 32) by omega, show (32 + i < 40) by omega, if_false, if_true, Nat.add_sub_cancel_left]
  · simp only [Nat.zero_add, if_pos hi]

/-- The word made of a word's fields. -/
theorem wordOf_fieldsOf (w : BitVec 64) : wordOf (fieldsOf w) = w := by
  apply BitVec.eq_of_getLsbD_eq
  intro j hj
  rw [wordOf_getLsbD]
  simp only [fieldsOf, BitVec.getLsbD_extractLsb']
  split
  · simp_all
  split
  · rw [show 32 + (j - 32) = j by omega]; simp; omega
  split
  · rw [show 40 + (j - 40) = j by omega]; simp; omega
  split
  · rw [show 48 + (j - 48) = j by omega]; simp; omega
  split
  · rw [show 49 + (j - 49) = j by omega]; simp; omega
  · rw [show 56 + (j - 56) = j by omega]; simp; omega

/-- Masking a word masks its fields. -/
theorem wordOf_and (f g : Fields) : wordOf f &&& wordOf g =
    wordOf ⟨f.opc &&& g.opc, f.rsv &&& g.rsv, f.inv &&& g.inv, f.a &&& g.a, f.b &&& g.b, f.imm &&& g.imm⟩ := by
  apply BitVec.eq_of_getLsbD_eq
  intro j hj
  simp only [BitVec.getLsbD_and, wordOf_getLsbD]
  repeat' split
  all_goals rfl

/-- A word has one reading. -/
theorem wordOf_inj {f g : Fields} (h : wordOf f = wordOf g) : f = g := by
  rw [← fieldsOf_wordOf f, h, fieldsOf_wordOf]

/-- A word is of a row exactly when each field, masked, is the row's. -/
theorem hits_iff (r : TableRow) (f : Fields) : r.hits (wordOf f) = true ↔
    (f.opc &&& (fieldsOf r.mask).opc = (fieldsOf r.pattern).opc ∧
     f.rsv &&& (fieldsOf r.mask).rsv = (fieldsOf r.pattern).rsv ∧
     f.inv &&& (fieldsOf r.mask).inv = (fieldsOf r.pattern).inv ∧
     f.a &&& (fieldsOf r.mask).a = (fieldsOf r.pattern).a ∧
     f.b &&& (fieldsOf r.mask).b = (fieldsOf r.pattern).b ∧
     f.imm &&& (fieldsOf r.mask).imm = (fieldsOf r.pattern).imm) := by
  rw [TableRow.hits, decide_eq_true_eq]
  conv_lhs => rw [← wordOf_fieldsOf r.mask, ← wordOf_fieldsOf r.pattern, wordOf_and]
  constructor
  · intro h
    have := wordOf_inj h
    simpa [Fields.ext_iff] using this
  · intro h
    congr 1
    simpa [Fields.ext_iff] using h
end Sys2Proof
end

