-- ==== Sys2Proof/Laws/Memory.lean ====
section
/-!
SUPPORT. The laws of the byte spaces: what each operation does to every byte, and that each keeps the
canonical form (spec 20_memory.md R50 to R53).
-/

namespace Sys2Proof.Machine

/-- A lower bound on the offsets may be lowered. -/
theorem cellsRising_mono {lo lo' : Nat} (h : lo ≤ lo') :
    ∀ {l : List Host.Cell}, cellsRising lo' l = true → cellsRising lo l = true
  | [], _ => rfl
  | (x, _) :: _, hl => by
    simp only [cellsRising, Bool.and_eq_true, decide_eq_true_eq] at hl ⊢
    exact ⟨by omega, hl.2⟩

/-- Below the first offset nothing is listed. -/
theorem cellsGet_eq_unlisted {lo a : Nat} (h : a < lo) :
    ∀ {l : List Host.Cell}, cellsRising lo l = true → cellsGet l a = Space.unlisted
  | [], _ => rfl
  | (x, b) :: t, hl => by
    simp only [cellsRising, Bool.and_eq_true, decide_eq_true_eq] at hl
    have hx : x ≠ a := by omega
    simp only [cellsGet, if_neg hx]
    exact cellsGet_eq_unlisted (by omega) hl.2

/-- Setting a byte keeps the offsets rising. -/
theorem cellsSet_rising {a lo : Nat} {v : Byte} (ha : lo ≤ a) :
    ∀ {l : List Host.Cell}, cellsRising lo l = true → cellsRising lo (cellsSet l a v) = true
  | [], _ => by
    unfold cellsSet
    split <;> simp [cellsRising, ha]
  | (x, b) :: t, hl => by
    simp only [cellsRising, Bool.and_eq_true, decide_eq_true_eq] at hl
    unfold cellsSet
    split
    · rename_i hx
      simpa [cellsRising, hl.1] using cellsSet_rising (by omega) hl.2
    · split
      · split
        · exact cellsRising_mono (by omega) hl.2
        · subst_vars; simpa [cellsRising, ha] using hl.2
      · split
        · simpa [cellsRising] using hl
        · simp only [cellsRising, Bool.and_eq_true, decide_eq_true_eq]
          exact ⟨ha, by omega, hl.2⟩

/-- A cell after setting a byte is an old one, or the new one. -/
theorem cellsSet_mem {a : Nat} {v : Byte} {c : Host.Cell} :
    ∀ {l : List Host.Cell}, c ∈ cellsSet l a v → c ∈ l ∨ (c = (a, v) ∧ v ≠ Space.unlisted)
  | [], h => by
    unfold cellsSet at h
    split at h <;> simp_all
  | (x, b) :: t, h => by
    unfold cellsSet at h
    split at h
    · rcases List.mem_cons.1 h with rfl | h
      · simp
      · rcases cellsSet_mem h with h | h <;> simp [h]
    · split at h
      · split at h
        · simp [h]
        · rcases List.mem_cons.1 h with rfl | h <;> simp_all
      · split at h
        · simp only [h, true_or]
        · rcases List.mem_cons.1 h with rfl | h
          · right; simp_all
          · left; exact h

/-- A read after a set: the byte set at its offset, the old one elsewhere. -/
theorem cellsGet_cellsSet {a lo : Nat} {v : Byte} (ha : lo ≤ a) :
    ∀ {l : List Host.Cell}, cellsRising lo l = true → ∀ x,
      cellsGet (cellsSet l a v) x = if x = a then v else cellsGet l x
  | [], _, x => by
    unfold cellsSet
    split
    · rename_i h; simp [cellsGet, h]
    · by_cases hx : a = x <;> simp [cellsGet, hx, eq_comm]
  | (y, b) :: t, hl, x => by
    simp only [cellsRising, Bool.and_eq_true, decide_eq_true_eq] at hl
    unfold cellsSet
    split
    · rename_i hya
      simp only [cellsGet]
      split
      · rw [if_neg (by omega)]
      · exact cellsGet_cellsSet (by omega) hl.2 x
    · split
      · rename_i hya
        subst hya
        have hu := cellsGet_eq_unlisted (Nat.lt_succ_self y) hl.2
        split
        · rename_i hv
          by_cases hx : x = y
          · subst hx; simp [hu, hv]
          · simp [hx, Ne.symm hx, cellsGet]
        · by_cases hx : x = y
          · simp [hx, cellsGet]
          · simp [hx, Ne.symm hx, cellsGet]
      · have hy : a < y := by omega
        have hu := cellsGet_eq_unlisted (show a < y + 1 by omega) hl.2
        split
        · rename_i hv
          by_cases hx : x = a
          · subst hx; simp [cellsGet, hu, hv]; omega
          · simp [hx]
        · by_cases hx : x = a
          · simp [hx, cellsGet]
          · simp [hx, Ne.symm hx, cellsGet]

/-- The canonical form, part by part. -/
theorem Space.wf_iff {m : Space} : m.wf = true ↔
    cellsRising 0 m.cells = true ∧ (∀ c ∈ m.cells, c.1 < m.len ∧ c.2 ≠ Space.unlisted) ∧ m.len ≤ Config.maxLen := by
  simp [Space.wf, and_assoc]

/-- A write leaves the length (R53). -/
@[simp] theorem memWrite_len (m : Space) (addr : Nat) (v : List Byte) : (memWrite m addr v).len = m.len := by
  induction v generalizing m addr with
  | nil => rfl
  | cons b t ih => exact ih _ _

/-- A write inside the space keeps the canonical form. -/
theorem memWrite_wf {m : Space} (addr : Nat) (v : List Byte) (h : m.wf = true)
    (hr : addr + v.length ≤ m.len) : (memWrite m addr v).wf = true := by
  induction v generalizing m addr with
  | nil => exact h
  | cons b t ih =>
    simp only [List.length_cons] at hr
    refine ih (m := { m with cells := cellsSet m.cells addr b }) (addr + 1) ?_ (by simp only; omega)
    rw [Space.wf_iff] at h ⊢
    refine ⟨cellsSet_rising (Nat.zero_le _) h.1, fun c hc => ?_, h.2.2⟩
    rcases cellsSet_mem hc with hc | ⟨rfl, hv⟩
    · exact h.2.1 c hc
    · exact ⟨by simp only; omega, hv⟩

/-- Every byte after a write (R53). -/
theorem memWrite_get {m : Space} (addr : Nat) (v : List Byte) (h : cellsRising 0 m.cells = true)
    (hr : addr + v.length ≤ m.len) (a : Nat) :
    (memWrite m addr v).get a = if addr ≤ a ∧ a < addr + v.length then v[a - addr]? else m.get a := by
  induction v generalizing m addr with
  | nil => simp [memWrite]
  | cons b t ih =>
    simp only [List.length_cons] at hr
    rw [memWrite, ih (m := { m with cells := cellsSet m.cells addr b }) (addr + 1)
      (cellsSet_rising (Nat.zero_le _) h) (by simp only; omega)]
    simp only [List.length_cons, Space.get, cellsGet_cellsSet (Nat.zero_le addr) h]
    by_cases h1 : a = addr
    · subst h1
      rw [if_neg (by omega), if_pos (by omega)]
      simp
    · by_cases h2 : addr + 1 ≤ a ∧ a < addr + 1 + t.length
      · rw [if_pos h2, if_pos (by omega)]
        rw [show a - addr = (a - (addr + 1)) + 1 by omega]
        simp
      · rw [if_neg h2, if_neg (show ¬ (addr ≤ a ∧ a < addr + (t.length + 1)) by omega)]
        simp [h1]

/-- Two canonical lists with equal bytes are equal. -/
theorem cells_ext : ∀ {l l' : List Host.Cell} {lo : Nat}, cellsRising lo l = true → cellsRising lo l' = true →
    (∀ c ∈ l, c.2 ≠ Space.unlisted) → (∀ c ∈ l', c.2 ≠ Space.unlisted) →
    (∀ a, cellsGet l a = cellsGet l' a) → l = l' := by
  intro l
  induction l with
  | nil =>
    intro l' lo _ hr' _ hn' he
    cases l' with
    | nil => rfl
    | cons c t =>
      exfalso
      have := he c.1
      simp only [cellsGet, if_true] at this
      exact hn' c (by simp) this.symm
  | cons c t ih =>
    intro l' lo hr hr' hn hn' he
    cases l' with
    | nil =>
      exfalso
      have := he c.1
      simp only [cellsGet, if_true] at this
      exact hn c (by simp) this
    | cons c' t' =>
      obtain ⟨x, b⟩ := c
      obtain ⟨x', b'⟩ := c'
      simp only [cellsRising, Bool.and_eq_true, decide_eq_true_eq] at hr hr'
      have hxx : x = x' := by
        rcases Nat.lt_trichotomy x x' with h | h | h
        · exfalso
          have := he x
          simp only [cellsGet, if_true, if_neg (show x' ≠ x by omega)] at this
          rw [cellsGet_eq_unlisted (show x < x' + 1 by omega) hr'.2] at this
          exact hn (x, b) (by simp) this
        · exact h
        · exfalso
          have := he x'
          simp only [cellsGet, if_true, if_neg (show x ≠ x' by omega)] at this
          rw [cellsGet_eq_unlisted (show x' < x + 1 by omega) hr.2] at this
          exact hn' (x', b') (by simp) this.symm
      subst hxx
      have hbb : b = b' := by have := he x; simpa [cellsGet] using this
      subst hbb
      congr 1
      refine ih hr.2 hr'.2 (fun c hc => hn c (by simp [hc])) (fun c hc => hn' c (by simp [hc])) fun a => ?_
      by_cases hax : x = a
      · subst hax
        rw [cellsGet_eq_unlisted (Nat.lt_succ_self x) hr.2, cellsGet_eq_unlisted (Nat.lt_succ_self x) hr'.2]
      · have := he a
        simpa [cellsGet, hax] using this

/-- Nothing is listed at or above a bound on the offsets. -/
theorem cellsGet_above {l : List Host.Cell} {n a : Nat} (h : ∀ c ∈ l, c.1 < n) (ha : n ≤ a) :
    cellsGet l a = Space.unlisted := by
  induction l with
  | nil => rfl
  | cons c t ih =>
    have hc := h c (by simp)
    obtain ⟨x, b⟩ := c
    simp only [cellsGet]
    rw [if_neg (by simp only at hc; omega)]
    exact ih fun c hc => h c (by simp [hc])

/-- Canonical spaces with equal bytes are equal data. -/
theorem Space.ext_get {m n : Space} (hm : m.wf = true) (hn : n.wf = true)
    (h : ∀ a, m.get a = n.get a) : m = n := by
  rw [Space.wf_iff] at hm hn
  have hlen : m.len = n.len := by
    rcases Nat.lt_trichotomy m.len n.len with hl | hl | hl
    · have := h m.len; simp [Space.get, hl] at this
    · exact hl
    · have := h n.len; simp [Space.get, hl] at this
  obtain ⟨ml, mc⟩ := m
  obtain ⟨nl, nc⟩ := n
  simp only at hlen
  subst hlen
  congr 1
  refine cells_ext hm.1 hn.1 (fun c hc => (hm.2.1 c hc).2) (fun c hc => (hn.2.1 c hc).2) fun a => ?_
  by_cases ha : a < ml
  · have := h a; simpa [Space.get, ha] using this
  · rw [cellsGet_above (n := ml) (fun c hc => (hm.2.1 c hc).1) (by omega),
      cellsGet_above (n := ml) (fun c hc => (hn.2.1 c hc).1) (by omega)]

/-- How many bytes a read finds (R52). -/
theorem memRead_length (m : Space) (addr n : Nat) : (memRead m addr n).length = min n (m.len - addr) := by
  induction n generalizing addr with
  | zero => simp [memRead]
  | succ n ih =>
    unfold memRead Space.get
    split
    · split at * <;> simp_all
    · split at * <;> simp_all; omega

/-- Which bytes a read finds (R52). -/
theorem memRead_getElem? (m : Space) (addr n i : Nat) :
    (memRead m addr n)[i]? = if i < n then m.get (addr + i) else none := by
  induction n generalizing addr i with
  | zero => simp [memRead]
  | succ n ih =>
    unfold memRead
    split
    · rename_i hg
      simp only [Space.get, ite_eq_right_iff] at hg
      have : ¬ addr < m.len := by intro h; simp [h] at hg
      simp [Space.get]; omega
    · rename_i b hg
      cases i with
      | zero => simp [hg]
      | succ i => simp [ih, show addr + 1 + i = addr + (i + 1) by omega]

/-- An append within MAX_LEN keeps the canonical form. -/
theorem memAppend_wf {m : Space} (v : List Byte) (h : m.wf = true) (hl : m.len + v.length ≤ Config.maxLen) :
    (memAppend m v).wf = true := by
  refine memWrite_wf (m := { m with len := m.len + v.length }) _ _ ?_ (by simp)
  rw [Space.wf_iff] at h ⊢
  exact ⟨h.1, fun c hc => ⟨Nat.lt_of_lt_of_le (h.2.1 c hc).1 (Nat.le_add_right _ _), (h.2.1 c hc).2⟩, hl⟩

/-- The length after an append. -/
@[simp] theorem memAppend_len (m : Space) (v : List Byte) : (memAppend m v).len = m.len + v.length := by
  simp [memAppend]

/-- Every byte after an append. -/
theorem memAppend_get {m : Space} (v : List Byte) (h : cellsRising 0 m.cells = true) (a : Nat) :
    (memAppend m v).get a = if a < m.len then m.get a else v[a - m.len]? := by
  rw [memAppend, memWrite_get (m := { m with len := m.len + v.length }) _ _ h (by simp)]
  simp only [Space.get]
  by_cases ha : a < m.len
  · rw [if_neg (by omega)]; simp [ha]; omega
  · rw [if_neg ha]
    by_cases hb : a < m.len + v.length
    · rw [if_pos (by omega)]
    · rw [if_neg (by omega), if_neg hb, List.getElem?_eq_none (by omega)]

/-- A truncation keeps the canonical form. -/
theorem memTruncate_wf {m : Space} (n : Nat) (h : m.wf = true) (hn : n ≤ m.len) : (memTruncate m n).wf = true := by
  rw [Space.wf_iff] at h ⊢
  refine ⟨?_, fun c hc => ?_, Nat.le_trans hn h.2.2⟩
  · have aux : ∀ (l : List Host.Cell) lo, cellsRising lo l = true →
        cellsRising lo (l.filter fun c => c.1 < n) = true := by
      intro l
      induction l with
      | nil => intro lo _; rfl
      | cons c t ih =>
        intro lo hl
        obtain ⟨x, b⟩ := c
        simp only [cellsRising, Bool.and_eq_true, decide_eq_true_eq] at hl
        rw [List.filter_cons]
        split
        · simp only [cellsRising, Bool.and_eq_true, decide_eq_true_eq]
          exact ⟨hl.1, ih _ hl.2⟩
        · exact ih _ (cellsRising_mono (by omega) hl.2)
    exact aux _ _ h.1
  · simp only [memTruncate, List.mem_filter, decide_eq_true_eq] at hc ⊢
    exact ⟨hc.2, (h.2.1 c hc.1).2⟩

/-- Every byte after a truncation. -/
theorem memTruncate_get {m : Space} (n : Nat) (hn : n ≤ m.len) (a : Nat) :
    (memTruncate m n).get a = if a < n then m.get a else none := by
  have aux : ∀ l : List Host.Cell, a < n → cellsGet (l.filter fun c => c.1 < n) a = cellsGet l a := by
    intro l ha
    induction l with
    | nil => rfl
    | cons c t ih =>
      obtain ⟨x, b⟩ := c
      rw [List.filter_cons]
      split
      · simp [cellsGet, ih]
      · rename_i hx
        simp only [decide_eq_true_eq, Nat.not_lt] at hx
        simp only [cellsGet, ih, if_neg (show x ≠ a by omega)]
  have hl : (memTruncate m n).len = n := rfl
  simp only [Space.get, hl]
  by_cases ha : a < n
  · simp only [if_pos ha, if_pos (show a < m.len by omega)]
    exact congrArg some (aux _ ha)
  · simp only [if_neg ha]

/-- The empty space is canonical. -/
theorem Space.empty_wf : Space.empty.wf = true := by decide

/-- A space made of at most MAX_LEN bytes is canonical. -/
theorem Space.ofBytes_wf {v : List Byte} (h : v.length ≤ Config.maxLen) : (Space.ofBytes v).wf = true :=
  memAppend_wf v Space.empty_wf (by simpa [Space.empty] using h)

/-- Every byte of a space made of bytes. -/
theorem Space.ofBytes_get (v : List Byte) (a : Nat) : (Space.ofBytes v).get a = v[a]? := by
  rw [Space.ofBytes, memAppend_get v (by decide)]
  simp [Space.empty]

/-- The length of a space made of bytes. -/
@[simp] theorem Space.ofBytes_len (v : List Byte) : (Space.ofBytes v).len = v.length := by
  simp [Space.ofBytes, Space.empty]

/-- The length after a truncation. -/
@[simp] theorem memTruncate_len (m : Space) (n : Nat) : (memTruncate m n).len = n := rfl

/-- The byte spaces at reset are canonical. -/
theorem reset_spaces_wf : State.reset.BUF.wf = true ∧ State.reset.KSRC.wf = true := by decide

end Sys2Proof.Machine
end

