-- ==== Sys2Proof/Laws/Ops.lean ====
section
/-!
SUPPORT. The laws of the shared operations: what each answers when the registers it reads are held, and
everything it can answer with at all.
-/

namespace Sys2Proof.Machine

/-- A list of defined values. -/
theorem allSome_map_some {α : Type} (l : List α) : allSome (l.map some) = some l := by
  induction l with
  | nil => rfl
  | cons a t ih => simp [allSome, ih]

/-- A list of values is defined exactly when each is. -/
theorem allSome_eq_some {α : Type} {l : List (Option α)} {v : List α} : allSome l = some v ↔ l = v.map some := by
  constructor
  · intro h
    induction l generalizing v with
    | nil => simp [allSome] at h; subst h; rfl
    | cons a t ih =>
      cases a with
      | none => simp [allSome] at h
      | some a =>
        simp only [allSome, Option.map_eq_some_iff] at h
        obtain ⟨w, hw, rfl⟩ := h
        simp [ih hw]
  · rintro rfl; exact allSome_map_some v

/-- The first entries of a register that was written from a list. -/
theorem ofFn_take {α : Type} {n : Nat} (l : List α) (h : l.length ≤ n) :
    (Vector.ofFn (n := n) fun i => l[i.val]?).toList.take l.length = l.map some := by
  apply List.ext_getElem?
  intro i
  simp only [List.getElem?_take, List.getElem?_map]
  split
  · rename_i hi
    rw [Vector.toList_ofFn, List.getElem?_ofFn]
    simp [show i < n by omega, hi]
  · rename_i hi
    simp; omega

/-- The bytes of a held Key. -/
theorem readKey_of {s : State} {z : KeySize} {key : List Byte} (h : s.HoldsKey z key) :
    readKey z s = some key := by
  obtain ⟨_, _, hl, hk⟩ := h
  have hle : key.length ≤ 32 := by rw [hl]; cases z <;> decide
  rw [readKey, hk, allSome_eq_some, ← hl]
  exact ofFn_take key hle

/-- Seeding gives NK words (R140). -/
theorem seedWords_length (nk : Nat) (key : List Byte) : (seedWords nk key).length = nk := by
  simp [seedWords]

/-- Each turn of the expansion adds one word (R141). -/
theorem expandLoop_length (nk : Nat) (ws : List Quad) (l : List Nat) :
    (l.foldl (fun ws i => ws ++ [nextWord nk ws (nk + i)]) ws).length = ws.length + l.length := by
  induction l generalizing ws with
  | nil => rfl
  | cons a t ih => simp only [List.foldl_cons, ih, List.length_append, List.length_cons, List.length_nil]; omega

/-- The words of a schedule, from the length of its key. -/
theorem expandKey_length (key : List Byte) :
    (expandKey key).length = key.length / 4 + (4 * (key.length / 4 + 7) - key.length / 4) := by
  simp [expandKey, expandLoop_length, seedWords_length]

/-- The words of the schedule of a legal key (R136). -/
theorem expandKey_columns {z : KeySize} {key : List Byte} (h : key.length = z.klen) :
    (expandKey key).length = z.columns := by
  rw [expandKey_length, h]; cases z <;> rfl

/-- The columns of W when W is the schedule of a key. -/
theorem readSchedule_of {s : State} {z : KeySize} {key : List Byte} (hl : key.length = z.klen)
    (h : s.W = scheduleRegister (expandKey key)) : readSchedule z s = some (expandKey key) := by
  have hc := expandKey_columns hl
  have hle : (expandKey key).length ≤ 60 := by rw [hc]; cases z <;> decide
  rw [readSchedule, h, allSome_eq_some, ← hc]
  exact ofFn_take _ hle

/-- `ensure_schedule` of a held Key whose schedule is in W or not yet computed (R144). -/
theorem ensureSchedule_of {s : State} {z : KeySize} {key : List Byte} (hk : s.HoldsKey z key)
    (hs : s.ScheduleIs key) :
    ensureSchedule z s = some { s with W := scheduleRegister (expandKey key), SV := true } := by
  unfold ensureSchedule
  split
  · rename_i h
    rw [← hs h]
    cases s; simp_all
  · simp [readKey_of hk]

/-- A command that needs the schedule of a held Key goes on with it in W. -/
theorem withSchedule_of {s : State} {z : KeySize} {key : List Byte} (hk : s.HoldsKey z key)
    (hs : s.ScheduleIs key) (k : State → List Quad → Result) :
    withSchedule z s k = k { s with W := scheduleRegister (expandKey key), SV := true } (expandKey key) := by
  have h := readSchedule_of
    (s := { s with W := scheduleRegister (expandKey key), SV := true }) hk.2.2.1 rfl
  simp only [withSchedule, ensureSchedule_of hk hs, h]

/-- A transform of a held Block State. -/
theorem transformBlock_of {s : State} {g : Grid} (h : s.HoldsBlock g) (f : Grid → Grid) :
    transformBlock f s = .next (respondOk 0x00000000 { s with S := some (f g) }) := by
  simp [transformBlock, blockMissing, withBlock, h.1, h.2]

/-- A transform of a held Block State under the schedule of a held Key. -/
theorem cipherBlock_of {s : State} {z : KeySize} {key : List Byte} {g : Grid} (hk : s.HoldsKey z key)
    (hs : s.ScheduleIs key) (hb : s.HoldsBlock g) (big : Nat → Bool) (f : Grid → List Quad → Nat → Grid)
    (hr : big z.nr = false) :
    cipherBlock big f s = .next (respondOk 0x00000000
      { s with S := some (f g (expandKey key) z.nr), W := scheduleRegister (expandKey key), SV := true }) := by
  simp [cipherBlock, keyOrBlockMissing, withKey, withBlock, withSchedule_of hk hs, hk.1, hk.2.1, hb.1, hb.2, hr]

/-! ### Everything a shared operation can answer with -/

/-- `ensure_schedule` answers with the state as it was, SV being 1, or with the expansion of the bytes of
K in W (R144). -/
theorem ensureSchedule_cases {z : KeySize} {s t : State} (h : ensureSchedule z s = some t) :
    (s.SV = true ∧ t = s) ∨
    (s.SV = false ∧ ∃ key, readKey z s = some key ∧
      t = { s with W := scheduleRegister (expandKey key), SV := true }) := by
  unfold ensureSchedule at h
  split at h
  · rename_i hs
    exact .inl ⟨hs, (Option.some.inj h).symm⟩
  · rename_i hs
    obtain ⟨key, hk, rfl⟩ := Option.map_eq_some_iff.1 h
    exact .inr ⟨by simpa using hs, key, hk, rfl⟩

/-- A next state of a command that reads KLEN. -/
theorem withKey_next {s t : State} {k : KeySize → Result} (h : withKey s k = .next t) :
    ∃ z, s.KLEN = some z ∧ k z = .next t := by
  unfold withKey at h
  split at h
  · cases h
  · exact ⟨_, ‹_›, h⟩

/-- A next state of a command that reads S. -/
theorem withBlock_next {s t : State} {k : Grid → Result} (h : withBlock s k = .next t) :
    ∃ g, s.S = some g ∧ k g = .next t := by
  unfold withBlock at h
  split at h
  · cases h
  · exact ⟨_, ‹_›, h⟩

/-- A next state of a command that reads the schedule. -/
theorem withSchedule_next {z : KeySize} {s t : State} {k : State → List Quad → Result}
    (h : withSchedule z s k = .next t) :
    ∃ s1 ws, ensureSchedule z s = some s1 ∧ readSchedule z s1 = some ws ∧ k s1 ws = .next t := by
  unfold withSchedule at h
  split at h
  · cases h
  · split at h
    · cases h
    · exact ⟨_, _, ‹_›, ‹_›, h⟩

/-- A next state of a transform: NotReady, or S replaced. -/
theorem transformBlock_next {f : Grid → Grid} {s t : State} (h : transformBlock f s = .next t) :
    (s.BV = false ∧ t = raise .notReady s) ∨
    (s.BV = true ∧ ∃ g, s.S = some g ∧ t = respondOk 0x00000000 { s with S := some (f g) }) := by
  unfold transformBlock blockMissing at h
  cases hb : s.BV <;> simp only [hb, Bool.not_false, Bool.not_true, if_true, Bool.false_eq_true, if_false] at h
  · cases h; exact .inl ⟨rfl, rfl⟩
  · obtain ⟨g, hg, h⟩ := withBlock_next h
    cases h
    exact .inr ⟨rfl, g, hg, rfl⟩

/-- A next state of a transform under the schedule: NotReady, RangeError, or S replaced after
`ensure_schedule`. -/
theorem cipherBlock_next {big : Nat → Bool} {f : Grid → List Quad → Nat → Grid} {s t : State}
    (h : cipherBlock big f s = .next t) :
    ((s.KV = false ∨ s.BV = false) ∧ t = raise .notReady s) ∨
    (s.KV = true ∧ s.BV = true ∧ ∃ z, s.KLEN = some z ∧
      ((big z.nr = true ∧ t = raise .rangeError s) ∨
       (big z.nr = false ∧ ∃ s1 ws g, ensureSchedule z s = some s1 ∧ readSchedule z s1 = some ws ∧
          s1.S = some g ∧ t = respondOk 0x00000000 { s1 with S := some (f g ws z.nr) }))) := by
  unfold cipherBlock keyOrBlockMissing at h
  split at h
  · rename_i hm
    cases h
    exact .inl ⟨by simpa using hm, rfl⟩
  · rename_i hm
    simp only [Bool.or_eq_true, Bool.not_eq_true', not_or, Bool.not_eq_false] at hm
    obtain ⟨z, hz, h⟩ := withKey_next h
    refine .inr ⟨hm.1, hm.2, z, hz, ?_⟩
    split at h <;> rename_i hbig
    · cases h; exact .inl ⟨hbig, rfl⟩
    · obtain ⟨s1, ws, h1, h2, h⟩ := withSchedule_next h
      obtain ⟨g, hg, h⟩ := withBlock_next h
      cases h
      exact .inr ⟨Bool.eq_false_iff.2 hbig, s1, ws, g, h1, h2, hg, rfl⟩

end Sys2Proof.Machine
end

