-- ==== Sys2Proof/Laws/Exec.lean ====
section
/-!
SUPPORT. Which meaning each command has, and everything the meanings that are not one shared operation can
answer with, one lemma each. Every other command is `transformBlock` or `cipherBlock` (Laws/Ops.lean), or
answers without reading a register.
-/

namespace Sys2Proof.Machine

/-! ### Which meaning each command has -/

@[simp] theorem exec_gfadd (a : Byte) (b : Byte) (s : State) : exec (.gfadd a b) s = execGfadd a b s := rfl
@[simp] theorem exec_gfdbl (a : Byte) (s : State) : exec (.gfdbl a) s = execGfdbl a s := rfl
@[simp] theorem exec_gfmul (a : Byte) (b : Byte) (s : State) : exec (.gfmul a b) s = execGfmul a b s := rfl
@[simp] theorem exec_gfmix (v : BitVec 32) (s : State) : exec (.gfmix v) s = execGfmix v s := rfl
@[simp] theorem exec_gfimix (v : BitVec 32) (s : State) : exec (.gfimix v) s = execGfimix v s := rfl
@[simp] theorem exec_sbox (a : Byte) (s : State) : exec (.sbox a) s = execSbox a s := rfl
@[simp] theorem exec_isbox (a : Byte) (s : State) : exec (.isbox a) s = execIsbox a s := rfl
@[simp] theorem exec_rcon (x : BitVec 8) (s : State) : exec (.rcon x) s = execRcon x s := rfl
@[simp] theorem exec_keyld (s : State) : exec .keyld s = execKeyld s := rfl
@[simp] theorem exec_kexp (s : State) : exec .kexp s = execKexp s := rfl
@[simp] theorem exec_rdrk (round : BitVec 8) (row : BitVec 8) (s : State) : exec (.rdrk round row) s = execRdrk round row s := rfl
@[simp] theorem exec_load (off : BitVec 32) (s : State) : exec (.load off) s = execLoad off s := rfl
@[simp] theorem exec_dump (off : BitVec 32) (s : State) : exec (.dump off) s = execDump off s := rfl
@[simp] theorem exec_cons (off : BitVec 32) (len : BitVec 8) (s : State) : exec (.cons off len) s = execCons off len s := rfl
@[simp] theorem exec_rdrow (row : BitVec 8) (s : State) : exec (.rdrow row) s = execRdrow row s := rfl
@[simp] theorem exec_subbytes (s : State) : exec .subbytes s = execSubbytes s := rfl
@[simp] theorem exec_isubbytes (s : State) : exec .isubbytes s = execIsubbytes s := rfl
@[simp] theorem exec_shiftrows (s : State) : exec .shiftrows s = execShiftrows s := rfl
@[simp] theorem exec_ishiftrows (s : State) : exec .ishiftrows s = execIshiftrows s := rfl
@[simp] theorem exec_mixcols (s : State) : exec .mixcols s = execMixcols s := rfl
@[simp] theorem exec_imixcols (s : State) : exec .imixcols s = execImixcols s := rfl
@[simp] theorem exec_addrk (round : BitVec 8) (s : State) : exec (.addrk round) s = execAddrk round s := rfl
@[simp] theorem exec_encrypt (s : State) : exec .encrypt s = execEncrypt s := rfl
@[simp] theorem exec_decrypt (s : State) : exec .decrypt s = execDecrypt s := rfl
@[simp] theorem exec_rdcsr (n : BitVec 8) (s : State) : exec (.rdcsr n) s = execRdcsr n s := rfl

/-! ### What a meaning can answer -/

/-- RCON answers a byte or RangeError (R126). -/
theorem execRcon_next {i : BitVec 8} {s t : State} (h : execRcon i s = .next t) :
    (9 < i.toNat ∧ t = raise .rangeError s) ∨ (i.toNat ≤ 9 ∧ ∃ d, t = respondOk d s) := by
  unfold execRcon at h
  split at h <;> rename_i hi <;> simp only [numberOf, Config.rconLen] at hi <;> cases h
  · exact .inl ⟨by omega, rfl⟩
  · exact .inr ⟨by omega, _, rfl⟩

/-- KEYLD raises KeySizeError, or loads the Key (R145). -/
theorem execKeyld_next {s t : State} (h : execKeyld s = .next t) :
    (KeySize.ofLength s.KSRC.len = none ∧ t = raise .keySizeError s) ∨
    (∃ z, KeySize.ofLength s.KSRC.len = some z ∧
      t = respondOk 0x00000000
        { s with
          K := keyRegister (memRead s.KSRC 0 s.KSRC.len), KLEN := some z, KV := true, SV := false
          W := scheduleNone }) := by
  unfold execKeyld at h
  simp only [memLen] at h
  split at h <;> cases h
  · exact .inl ⟨‹_›, rfl⟩
  · exact .inr ⟨_, ‹_›, rfl⟩

/-- KEXP raises NotReady, or ensures the schedule (R146). -/
theorem execKexp_next {s t : State} (h : execKexp s = .next t) :
    (s.KV = false ∧ t = raise .notReady s) ∨
    (s.KV = true ∧ ∃ z s1, s.KLEN = some z ∧ ensureSchedule z s = some s1 ∧
      t = respondOk 0x00000000 s1) := by
  unfold execKexp at h
  split at h <;> rename_i hk <;> simp only [keyMissing, Bool.not_eq_true', Bool.not_eq_false] at hk
  · cases h; exact .inl ⟨hk, rfl⟩
  · obtain ⟨z, hz, h⟩ := withKey_next h
    split at h <;> cases h
    exact .inr ⟨hk, z, _, hz, ‹_›, rfl⟩

/-- RDRK raises NotReady or RangeError, or ensures the schedule and answers (R147). -/
theorem execRdrk_next {round row : BitVec 8} {s t : State} (h : execRdrk round row s = .next t) :
    (s.KV = false ∧ t = raise .notReady s) ∨
    (s.KV = true ∧ ∃ z, s.KLEN = some z ∧
      ((z.nr < round.toNat ∧ t = raise .rangeError s) ∨
       (round.toNat ≤ z.nr ∧ ∃ s1 d, ensureSchedule z s = some s1 ∧ t = respondOk d s1))) := by
  unfold execRdrk at h
  split at h <;> rename_i hk <;> simp only [keyMissing, Bool.not_eq_true', Bool.not_eq_false] at hk
  · cases h; exact .inl ⟨hk, rfl⟩
  · obtain ⟨z, hz, h⟩ := withKey_next h
    refine .inr ⟨hk, z, hz, ?_⟩
    split at h
    · cases h; exact .inl ⟨‹_›, rfl⟩
    · obtain ⟨s1, ws, h1, _, h⟩ := withSchedule_next h
      cases h
      exact .inr ⟨Nat.not_lt.1 ‹_›, s1, _, h1, rfl⟩

/-- LOAD reports end of data, or takes a block (R163). -/
theorem execLoad_next {off : BitVec 32} {s t : State} (h : execLoad off s = .next t) :
    (s.BUF.len < off.toNat + 16 ∧ t = respondEod { s with S := none, BV := false }) ∨
    (off.toNat + 16 ≤ s.BUF.len ∧
      t = respondOk 0x00000000 { s with S := some (gridOf (memRead s.BUF off.toNat 16)), BV := true }) := by
  simp only [execLoad] at h
  split at h <;> rename_i hn <;> simp only [numberOf, Config.blockBytes, memRead_length] at hn <;> cases h
  · exact .inl ⟨by omega, rfl⟩
  · exact .inr ⟨by omega, rfl⟩

/-- DUMP raises NotReady or BoundsError, or writes the block into BUF (R164). -/
theorem execDump_next {off : BitVec 32} {s t : State} (h : execDump off s = .next t) :
    (s.BV = false ∧ t = raise .notReady s) ∨
    (s.BV = true ∧ s.BUF.len < off.toNat + 16 ∧ t = raise .boundsError s) ∨
    (s.BV = true ∧ off.toNat + 16 ≤ s.BUF.len ∧ ∃ g, s.S = some g ∧
      t = respondOk 0x00000000 { s with BUF := memWrite s.BUF off.toNat (flatOf g) }) := by
  unfold execDump at h
  split at h <;> rename_i hb <;> simp only [blockMissing, Bool.not_eq_true', Bool.not_eq_false] at hb
  · cases h; exact .inl ⟨hb, rfl⟩
  · split at h <;> rename_i hn <;> simp only [memLen, numberOf, Config.blockBytes] at hn
    · cases h; exact .inr (.inl ⟨hb, hn, rfl⟩)
    · obtain ⟨g, hg, h⟩ := withBlock_next h
      cases h
      exact .inr (.inr ⟨hb, by omega, g, hg, rfl⟩)

/-- CONS raises StateSizeError, or takes a block (R165, R253). -/
theorem execCons_next {off : BitVec 32} {len : BitVec 8} {s t : State} (h : execCons off len s = .next t) :
    ((len.toNat ≠ 16 ∨ s.BUF.len < off.toNat + 16) ∧ t = raise .stateSizeError s) ∨
    (len.toNat = 16 ∧ off.toNat + 16 ≤ s.BUF.len ∧
      t = respondOk 0x00000000 { s with S := some (gridOf (memRead s.BUF off.toNat 16)), BV := true }) := by
  simp only [execCons] at h
  split at h <;> rename_i hn <;> simp only [numberOf, Config.blockBytes, memRead_length] at hn <;> cases h
  · exact .inl ⟨by omega, rfl⟩
  · simp only [not_or, not_not] at hn
    refine .inr ⟨hn.1, by omega, ?_⟩
    simp only [numberOf, hn.1]

/-- RDROW raises NotReady, or answers a row (R166). -/
theorem execRdrow_next {row : BitVec 8} {s t : State} (h : execRdrow row s = .next t) :
    (s.BV = false ∧ t = raise .notReady s) ∨ (s.BV = true ∧ ∃ d, t = respondOk d s) := by
  unfold execRdrow at h
  split at h <;> rename_i hb <;> simp only [blockMissing, Bool.not_eq_true', Bool.not_eq_false] at hb
  · cases h; exact .inl ⟨hb, rfl⟩
  · obtain ⟨g, hg, h⟩ := withBlock_next h
    cases h
    exact .inr ⟨hb, _, rfl⟩

/-- RDCSR answers one word (R215). -/
theorem execRdcsr_next {n : BitVec 8} {s t : State} (h : execRdcsr n s = .next t) :
    ∃ d, t = respondOk d s := by
  unfold execRdcsr at h
  split at h
  · cases h; exact ⟨_, rfl⟩
  · split at h
    · cases h; exact ⟨_, rfl⟩
    · obtain ⟨z, hz, h⟩ := withKey_next h
      cases h
      exact ⟨_, rfl⟩

end Sys2Proof.Machine
end

