-- ==== Sys2Proof/Laws/Field.lean ====
section
/-!
SUPPORT. The laws of the packing of four bytes (spec 30_encoding.md R87) and of grids given element by
element.
-/

namespace Sys2Proof

/-- An element of a grid given element by element. -/
@[simp] theorem Quad.get_ofFn (f : Fin 4 → Byte) (i : Fin 4) : (Quad.ofFn f).get i = f i := by
  match i with
  | 0 => rfl
  | 1 => rfl
  | 2 => rfl
  | 3 => rfl

/-- An element of a grid given element by element. -/
@[simp] theorem Grid.get_ofFn (f : Fin 4 → Fin 4 → Byte) (r c : Fin 4) : (Grid.ofFn f).get r c = f r c := by
  match r with
  | 0 => exact Quad.get_ofFn _ c
  | 1 => exact Quad.get_ofFn _ c
  | 2 => exact Quad.get_ofFn _ c
  | 3 => exact Quad.get_ofFn _ c

/-- Four bytes with equal elements are equal. -/
theorem Quad.ext_get {p q : Quad} (h : ∀ i, p.get i = q.get i) : p = q :=
  Quad.ext (h 0) (h 1) (h 2) (h 3)

/-- Grids with equal elements are equal. -/
theorem Grid.ext_get {g k : Grid} (h : ∀ r c, g.get r c = k.get r c) : g = k :=
  Grid.ext (Quad.ext_get (h 0)) (Quad.ext_get (h 1)) (Quad.ext_get (h 2)) (Quad.ext_get (h 3))

/-- An element of a column of a grid. -/
@[simp] theorem Grid.get_col (g : Grid) (r c : Fin 4) : (g.col c).get r = g.get r c := by
  simp [Grid.col]

namespace Machine

/-- Which byte each bit of a packed vector comes from (R87). -/
theorem packed_getLsbD (v0 v1 v2 v3 : Byte) (j : Nat) :
    (v0 ++ v1 ++ v2 ++ v3 : BitVec 32).getLsbD j =
      if j < 8 then v3.getLsbD j else if j < 16 then v2.getLsbD (j - 8)
      else if j < 24 then v1.getLsbD (j - 16) else v0.getLsbD (j - 24) := by
  show BitVec.getLsbD (w := 8 + 8 + 8 + 8) (v0 ++ v1 ++ v2 ++ v3) j = _
  simp only [BitVec.getLsbD_append]
  split
  · rfl
  repeat' split
  all_goals first
    | omega
    | simp only [Nat.sub_sub]

/-- Unpacking a packed vector (R87). -/
theorem unpackQuad_packed (v0 v1 v2 v3 : Byte) : unpackQuad (v0 ++ v1 ++ v2 ++ v3) = ⟨v0, v1, v2, v3⟩ := by
  simp only [unpackQuad, Quad.mk.injEq]
  refine ⟨?_, ?_, ?_, ?_⟩ <;>
  · apply BitVec.eq_of_getLsbD_eq
    intro i hi
    rw [BitVec.getLsbD_extractLsb', packed_getLsbD]
    simp only [hi, decide_true, Bool.true_and]
    repeat' split
    all_goals first | omega | simp

/-- Packing and unpacking are inverse (R87). -/
@[simp] theorem unpackQuad_packQuad (q : Quad) : unpackQuad (packQuad q) = q := unpackQuad_packed _ _ _ _

/-- Packing and unpacking are inverse (R87). -/
@[simp] theorem packQuad_unpackQuad (v : BitVec 32) : packQuad (unpackQuad v) = v := by
  apply BitVec.eq_of_getLsbD_eq
  intro j hj
  simp only [packQuad]
  rw [packed_getLsbD]
  simp only [unpackQuad, BitVec.getLsbD_extractLsb']
  split
  · simp_all
  split
  · rw [show 8 + (j - 8) = j by omega]; simp; omega
  split
  · rw [show 16 + (j - 16) = j by omega]; simp; omega
  · rw [show 24 + (j - 24) = j by omega]; simp; omega

end Machine

end Sys2Proof
end

