-- ==== Sys2Proof/Laws/PerInstr.lean ====
section
/-!
SUPPORT. Statements about every command, made per constructor.
-/

namespace Sys2Proof.Laws.EncodeHitsRow

set_option Elab.async false

/-- The word of a well-formed command is matched by a row of the opcode table with the command's own
mnemonic (R80). -/
def Statement (i : Instr) : Prop :=
  i.wf = true → ∃ r ∈ opcodeTable, r.mnemonic = i.mnemonic ∧ r.hits (encode i) = true

/-- A row of the table, given by its index, matches the word field by field. -/
theorem of_row {i : Instr} (k : Nat) (r : TableRow) (hr : opcodeTable[k]? = some r)
    (hm : r.mnemonic = i.mnemonic)
    (hf : i.fields.opc &&& (fieldsOf r.mask).opc = (fieldsOf r.pattern).opc ∧
      i.fields.rsv &&& (fieldsOf r.mask).rsv = (fieldsOf r.pattern).rsv ∧
      i.fields.inv &&& (fieldsOf r.mask).inv = (fieldsOf r.pattern).inv ∧
      i.fields.a &&& (fieldsOf r.mask).a = (fieldsOf r.pattern).a ∧
      i.fields.b &&& (fieldsOf r.mask).b = (fieldsOf r.pattern).b ∧
      i.fields.imm &&& (fieldsOf r.mask).imm = (fieldsOf r.pattern).imm) :
    ∃ r ∈ opcodeTable, r.mnemonic = i.mnemonic ∧ r.hits (encode i) = true :=
  ⟨r, List.mem_of_getElem? hr, hm, (hits_iff r i.fields).2 hf⟩

/-- A field the command uses whole: the row asks nothing of it. -/
theorem whole {w : Nat} {x m p : BitVec w} (hm : m = 0 := by rfl) (hp : p = 0 := by rfl) : x &&& m = p := by
  subst hm hp; simp

/-- A field the command does not use: it is 0. -/
theorem unused {w : Nat} {x m p : BitVec w} (hx : x = 0 := by rfl) (hp : p = 0 := by rfl) : x &&& m = p := by
  subst hx hp; simp

/-- A field that is a code of the command. -/
theorem fixed {w : Nat} {x m p : BitVec w} (c : BitVec w) (hx : x = c) (h : c &&& m = p) : x &&& m = p := by
  rw [hx, h]

/-- A field below 16 has no bit above bit 3. -/
theorem masked_nibble : ∀ x : BitVec 8, x.toNat < 16 → x &&& 0xF0#8 = 0#8 := by decide

/-- A field below 4 has no bit above bit 1. -/
theorem masked_pair : ∀ x : BitVec 8, x.toNat < 4 → x &&& 0xFC#8 = 0#8 := by decide

/-- A field below 2 has no bit above bit 0. -/
theorem masked_bit : ∀ x : BitVec 8, x.toNat < 2 → x &&& 0xFE#8 = 0#8 := by decide

theorem gfadd (a : BitVec 8) (b : BitVec 8) : Statement (.gfadd a b) :=
  fun _ => of_row 0 _ rfl rfl
    ⟨fixed 0x10 rfl (by decide), unused, unused, whole, whole, unused⟩

theorem gfdbl (a : BitVec 8) : Statement (.gfdbl a) :=
  fun _ => of_row 1 _ rfl rfl
    ⟨fixed 0x11 rfl (by decide), unused, unused, whole, unused, unused⟩

theorem gfmul (a : BitVec 8) (b : BitVec 8) : Statement (.gfmul a b) :=
  fun _ => of_row 2 _ rfl rfl
    ⟨fixed 0x12 rfl (by decide), unused, unused, whole, whole, unused⟩

theorem gfmix (v : BitVec 32) : Statement (.gfmix v) :=
  fun _ => of_row 3 _ rfl rfl
    ⟨fixed 0x13 rfl (by decide), unused, unused, unused, unused, whole⟩

theorem gfimix (v : BitVec 32) : Statement (.gfimix v) :=
  fun _ => of_row 4 _ rfl rfl
    ⟨fixed 0x13 rfl (by decide), unused, fixed 1 rfl (by decide), unused, unused, whole⟩

theorem sbox (a : BitVec 8) : Statement (.sbox a) :=
  fun _ => of_row 5 _ rfl rfl
    ⟨fixed 0x20 rfl (by decide), unused, unused, whole, unused, unused⟩

theorem isbox (a : BitVec 8) : Statement (.isbox a) :=
  fun _ => of_row 6 _ rfl rfl
    ⟨fixed 0x20 rfl (by decide), unused, fixed 1 rfl (by decide), whole, unused, unused⟩

theorem rcon (i : BitVec 8) : Statement (.rcon i) :=
  fun h => of_row 7 _ rfl rfl
    ⟨fixed 0x21 rfl (by decide), unused, unused, masked_nibble _ (of_decide_eq_true h), unused, unused⟩

theorem keyld : Statement .keyld :=
  fun _ => of_row 8 _ rfl rfl
    ⟨fixed 0x30 rfl (by decide), unused, unused, unused, unused, unused⟩

theorem kexp : Statement .kexp :=
  fun _ => of_row 9 _ rfl rfl
    ⟨fixed 0x31 rfl (by decide), unused, unused, unused, unused, unused⟩

theorem rdrk (round : BitVec 8) (row : BitVec 8) : Statement (.rdrk round row) :=
  fun h => of_row 10 _ rfl rfl
    ⟨fixed 0x32 rfl (by decide), unused, unused,
      masked_nibble _ (of_decide_eq_true (Bool.and_eq_true_iff.1 h).1),
      masked_pair _ (of_decide_eq_true (Bool.and_eq_true_iff.1 h).2), unused⟩

theorem load (off : BitVec 32) : Statement (.load off) :=
  fun _ => of_row 11 _ rfl rfl
    ⟨fixed 0x40 rfl (by decide), unused, unused, unused, unused, whole⟩

theorem dump (off : BitVec 32) : Statement (.dump off) :=
  fun _ => of_row 12 _ rfl rfl
    ⟨fixed 0x41 rfl (by decide), unused, unused, unused, unused, whole⟩

theorem cons (off : BitVec 32) (len : BitVec 8) : Statement (.cons off len) :=
  fun _ => of_row 13 _ rfl rfl
    ⟨fixed 0x42 rfl (by decide), unused, unused, whole, unused, whole⟩

theorem rdrow (row : BitVec 8) : Statement (.rdrow row) :=
  fun h => of_row 14 _ rfl rfl
    ⟨fixed 0x43 rfl (by decide), unused, unused, masked_pair _ (of_decide_eq_true h), unused, unused⟩

theorem subbytes : Statement .subbytes :=
  fun _ => of_row 15 _ rfl rfl
    ⟨fixed 0x50 rfl (by decide), unused, unused, unused, unused, unused⟩

theorem isubbytes : Statement .isubbytes :=
  fun _ => of_row 16 _ rfl rfl
    ⟨fixed 0x50 rfl (by decide), unused, fixed 1 rfl (by decide), unused, unused, unused⟩

theorem shiftrows : Statement .shiftrows :=
  fun _ => of_row 17 _ rfl rfl
    ⟨fixed 0x51 rfl (by decide), unused, unused, unused, unused, unused⟩

theorem ishiftrows : Statement .ishiftrows :=
  fun _ => of_row 18 _ rfl rfl
    ⟨fixed 0x51 rfl (by decide), unused, fixed 1 rfl (by decide), unused, unused, unused⟩

theorem mixcols : Statement .mixcols :=
  fun _ => of_row 19 _ rfl rfl
    ⟨fixed 0x52 rfl (by decide), unused, unused, unused, unused, unused⟩

theorem imixcols : Statement .imixcols :=
  fun _ => of_row 20 _ rfl rfl
    ⟨fixed 0x52 rfl (by decide), unused, fixed 1 rfl (by decide), unused, unused, unused⟩

theorem addrk (round : BitVec 8) : Statement (.addrk round) :=
  fun h => of_row 21 _ rfl rfl
    ⟨fixed 0x53 rfl (by decide), unused, unused, masked_nibble _ (of_decide_eq_true h), unused, unused⟩

theorem encrypt : Statement .encrypt :=
  fun _ => of_row 22 _ rfl rfl
    ⟨fixed 0x60 rfl (by decide), unused, unused, unused, unused, unused⟩

theorem decrypt : Statement .decrypt :=
  fun _ => of_row 23 _ rfl rfl
    ⟨fixed 0x61 rfl (by decide), unused, unused, unused, unused, unused⟩

theorem rdcsr (n : BitVec 8) : Statement (.rdcsr n) :=
  fun h => of_row 24 _ rfl rfl
    ⟨fixed 0x70 rfl (by decide), unused, unused, masked_bit _ (of_decide_eq_true h), unused, unused⟩

end Sys2Proof.Laws.EncodeHitsRow
end

