-- ==== Sys2Proof/Laws/Safety.lean ====
section
/-!
SUPPORT. The terms of Safety.lean say something of a few fields each: they carry over to any state that
agrees on those. Cite these instead of comparing two whole states.
-/

namespace Sys2Proof.Machine

theorem State.HoldsKey.congr {s t : State} {z : KeySize} {key : List Byte} (h : s.HoldsKey z key)
    (h1 : t.KV = s.KV) (h2 : t.KLEN = s.KLEN) (h3 : t.K = s.K) : t.HoldsKey z key :=
  ⟨h1.trans h.1, h2.trans h.2.1, h.2.2.1, h3.trans h.2.2.2⟩

theorem State.HoldsBlock.congr {s t : State} {g : Grid} (h : s.HoldsBlock g) (h1 : t.BV = s.BV)
    (h2 : t.S = s.S) : t.HoldsBlock g :=
  ⟨h1.trans h.1, h2.trans h.2⟩

theorem State.ScheduleIs.congr {s t : State} {key : List Byte} (h : s.ScheduleIs key) (h1 : t.SV = s.SV)
    (h2 : t.W = s.W) : t.ScheduleIs key :=
  fun hs => h2.trans (h (h1.symm.trans hs))

theorem State.KeyOk.congr {s t : State} (h : s.KeyOk) (h1 : t.KV = s.KV) (h2 : t.KLEN = s.KLEN)
    (h3 : t.K = s.K) : t.KeyOk :=
  h.imp (fun ⟨z, key, hk⟩ => ⟨z, key, hk.congr h1 h2 h3⟩)
    fun ⟨a, b, c⟩ => ⟨h1.trans a, h2.trans b, h3.trans c⟩

theorem State.ScheduleOk.congr {s t : State} (h : s.ScheduleOk) (h1 : t.KV = s.KV)
    (h2 : t.KLEN = s.KLEN) (h3 : t.K = s.K) (h4 : t.SV = s.SV) (h5 : t.W = s.W) : t.ScheduleOk :=
  h.imp (fun ⟨a, z, key, hk, b⟩ => ⟨h4.trans a, z, key, hk.congr h1 h2 h3, h5.trans b⟩)
    fun ⟨a, b⟩ => ⟨h4.trans a, h5.trans b⟩

theorem State.BlockOk.congr {s t : State} (h : s.BlockOk) (h1 : t.BV = s.BV) (h2 : t.S = s.S) :
    t.BlockOk := by
  rw [State.BlockOk, h1, h2]
  exact h

/-- The parts of the invariant, by name. -/
theorem State.inv_iff {s : State} : s.Inv ↔
    s.KeyOk ∧ s.ScheduleOk ∧ s.BlockOk ∧ s.ERR ∈ recordableCodes ∧ (∀ r ∈ s.responses, r.Ok) ∧
      s.BUF.wf = true ∧ s.KSRC.wf = true := Iff.rfl

end Sys2Proof.Machine
end

