-- ==== Sys2Proof/Laws/State.lean ====
section
/-!
SUPPORT. What each update of the state does to each field, so that no proof unfolds a record update.
-/

namespace Sys2Proof.Machine

/-! ### `answer`: the response, and nothing else -/

@[simp] theorem answer_S (st : BitVec 8) (d : BitVec 32) (s : State) : (answer st d s).S = s.S := rfl
@[simp] theorem answer_BV (st : BitVec 8) (d : BitVec 32) (s : State) : (answer st d s).BV = s.BV := rfl
@[simp] theorem answer_K (st : BitVec 8) (d : BitVec 32) (s : State) : (answer st d s).K = s.K := rfl
@[simp] theorem answer_KLEN (st : BitVec 8) (d : BitVec 32) (s : State) : (answer st d s).KLEN = s.KLEN := rfl
@[simp] theorem answer_KV (st : BitVec 8) (d : BitVec 32) (s : State) : (answer st d s).KV = s.KV := rfl
@[simp] theorem answer_W (st : BitVec 8) (d : BitVec 32) (s : State) : (answer st d s).W = s.W := rfl
@[simp] theorem answer_SV (st : BitVec 8) (d : BitVec 32) (s : State) : (answer st d s).SV = s.SV := rfl
@[simp] theorem answer_ERR (st : BitVec 8) (d : BitVec 32) (s : State) : (answer st d s).ERR = s.ERR := rfl
@[simp] theorem answer_BUF (st : BitVec 8) (d : BitVec 32) (s : State) : (answer st d s).BUF = s.BUF := rfl
@[simp] theorem answer_KSRC (st : BitVec 8) (d : BitVec 32) (s : State) : (answer st d s).KSRC = s.KSRC := rfl
@[simp] theorem answer_responses (st : BitVec 8) (d : BitVec 32) (s : State) : (answer st d s).responses = s.responses ++ [⟨st, d⟩] := rfl
@[simp] theorem answer_host (st : BitVec 8) (d : BitVec 32) (s : State) : (answer st d s).host = s.host := rfl
@[simp] theorem answer_hostResults (st : BitVec 8) (d : BitVec 32) (s : State) : (answer st d s).hostResults = s.hostResults := rfl

/-! ### `respondOk` -/

@[simp] theorem respondOk_S (d : BitVec 32) (s : State) : (respondOk d s).S = s.S := rfl
@[simp] theorem respondOk_BV (d : BitVec 32) (s : State) : (respondOk d s).BV = s.BV := rfl
@[simp] theorem respondOk_K (d : BitVec 32) (s : State) : (respondOk d s).K = s.K := rfl
@[simp] theorem respondOk_KLEN (d : BitVec 32) (s : State) : (respondOk d s).KLEN = s.KLEN := rfl
@[simp] theorem respondOk_KV (d : BitVec 32) (s : State) : (respondOk d s).KV = s.KV := rfl
@[simp] theorem respondOk_W (d : BitVec 32) (s : State) : (respondOk d s).W = s.W := rfl
@[simp] theorem respondOk_SV (d : BitVec 32) (s : State) : (respondOk d s).SV = s.SV := rfl
@[simp] theorem respondOk_ERR (d : BitVec 32) (s : State) : (respondOk d s).ERR = s.ERR := rfl
@[simp] theorem respondOk_BUF (d : BitVec 32) (s : State) : (respondOk d s).BUF = s.BUF := rfl
@[simp] theorem respondOk_KSRC (d : BitVec 32) (s : State) : (respondOk d s).KSRC = s.KSRC := rfl
@[simp] theorem respondOk_responses (d : BitVec 32) (s : State) : (respondOk d s).responses = s.responses ++ [⟨stOk, d⟩] := rfl
@[simp] theorem respondOk_host (d : BitVec 32) (s : State) : (respondOk d s).host = s.host := rfl
@[simp] theorem respondOk_hostResults (d : BitVec 32) (s : State) : (respondOk d s).hostResults = s.hostResults := rfl

/-! ### `respondEod` -/

@[simp] theorem respondEod_S (s : State) : (respondEod s).S = s.S := rfl
@[simp] theorem respondEod_BV (s : State) : (respondEod s).BV = s.BV := rfl
@[simp] theorem respondEod_K (s : State) : (respondEod s).K = s.K := rfl
@[simp] theorem respondEod_KLEN (s : State) : (respondEod s).KLEN = s.KLEN := rfl
@[simp] theorem respondEod_KV (s : State) : (respondEod s).KV = s.KV := rfl
@[simp] theorem respondEod_W (s : State) : (respondEod s).W = s.W := rfl
@[simp] theorem respondEod_SV (s : State) : (respondEod s).SV = s.SV := rfl
@[simp] theorem respondEod_ERR (s : State) : (respondEod s).ERR = s.ERR := rfl
@[simp] theorem respondEod_BUF (s : State) : (respondEod s).BUF = s.BUF := rfl
@[simp] theorem respondEod_KSRC (s : State) : (respondEod s).KSRC = s.KSRC := rfl
@[simp] theorem respondEod_responses (s : State) : (respondEod s).responses = s.responses ++ [⟨stEod, 0x00000000⟩] := rfl
@[simp] theorem respondEod_host (s : State) : (respondEod s).host = s.host := rfl
@[simp] theorem respondEod_hostResults (s : State) : (respondEod s).hostResults = s.hostResults := rfl

/-! ### `raise`: ERR and the response (R262) -/

@[simp] theorem raise_S (e : Err) (s : State) : (raise e s).S = s.S := rfl
@[simp] theorem raise_BV (e : Err) (s : State) : (raise e s).BV = s.BV := rfl
@[simp] theorem raise_K (e : Err) (s : State) : (raise e s).K = s.K := rfl
@[simp] theorem raise_KLEN (e : Err) (s : State) : (raise e s).KLEN = s.KLEN := rfl
@[simp] theorem raise_KV (e : Err) (s : State) : (raise e s).KV = s.KV := rfl
@[simp] theorem raise_W (e : Err) (s : State) : (raise e s).W = s.W := rfl
@[simp] theorem raise_SV (e : Err) (s : State) : (raise e s).SV = s.SV := rfl
@[simp] theorem raise_ERR (e : Err) (s : State) : (raise e s).ERR = if s.ERR = 0x00 then e.code else s.ERR := rfl
@[simp] theorem raise_BUF (e : Err) (s : State) : (raise e s).BUF = s.BUF := rfl
@[simp] theorem raise_KSRC (e : Err) (s : State) : (raise e s).KSRC = s.KSRC := rfl
@[simp] theorem raise_responses (e : Err) (s : State) : (raise e s).responses = s.responses ++ [⟨e.code, 0x00000000⟩] := rfl
@[simp] theorem raise_host (e : Err) (s : State) : (raise e s).host = s.host := rfl
@[simp] theorem raise_hostResults (e : Err) (s : State) : (raise e s).hostResults = s.hostResults := rfl

/-! ### `resetCore`: the registers of the CORE (R286) -/

@[simp] theorem resetCore_S (s : State) : (resetCore s).S = State.reset.S := rfl
@[simp] theorem resetCore_BV (s : State) : (resetCore s).BV = State.reset.BV := rfl
@[simp] theorem resetCore_K (s : State) : (resetCore s).K = State.reset.K := rfl
@[simp] theorem resetCore_KLEN (s : State) : (resetCore s).KLEN = State.reset.KLEN := rfl
@[simp] theorem resetCore_KV (s : State) : (resetCore s).KV = State.reset.KV := rfl
@[simp] theorem resetCore_W (s : State) : (resetCore s).W = State.reset.W := rfl
@[simp] theorem resetCore_SV (s : State) : (resetCore s).SV = State.reset.SV := rfl
@[simp] theorem resetCore_ERR (s : State) : (resetCore s).ERR = State.reset.ERR := rfl
@[simp] theorem resetCore_BUF (s : State) : (resetCore s).BUF = s.BUF := rfl
@[simp] theorem resetCore_KSRC (s : State) : (resetCore s).KSRC = s.KSRC := rfl
@[simp] theorem resetCore_responses (s : State) : (resetCore s).responses = s.responses := rfl
@[simp] theorem resetCore_host (s : State) : (resetCore s).host = s.host := rfl
@[simp] theorem resetCore_hostResults (s : State) : (resetCore s).hostResults = s.hostResults := rfl

/-! ### `note` -/

@[simp] theorem note_S (r : HostResult) (s : State) : (note r s).S = s.S := rfl
@[simp] theorem note_BV (r : HostResult) (s : State) : (note r s).BV = s.BV := rfl
@[simp] theorem note_K (r : HostResult) (s : State) : (note r s).K = s.K := rfl
@[simp] theorem note_KLEN (r : HostResult) (s : State) : (note r s).KLEN = s.KLEN := rfl
@[simp] theorem note_KV (r : HostResult) (s : State) : (note r s).KV = s.KV := rfl
@[simp] theorem note_W (r : HostResult) (s : State) : (note r s).W = s.W := rfl
@[simp] theorem note_SV (r : HostResult) (s : State) : (note r s).SV = s.SV := rfl
@[simp] theorem note_ERR (r : HostResult) (s : State) : (note r s).ERR = s.ERR := rfl
@[simp] theorem note_BUF (r : HostResult) (s : State) : (note r s).BUF = s.BUF := rfl
@[simp] theorem note_KSRC (r : HostResult) (s : State) : (note r s).KSRC = s.KSRC := rfl
@[simp] theorem note_responses (r : HostResult) (s : State) : (note r s).responses = s.responses := rfl
@[simp] theorem note_host (r : HostResult) (s : State) : (note r s).host = s.host := rfl
@[simp] theorem note_hostResults (r : HostResult) (s : State) : (note r s).hostResults = s.hostResults ++ [r] := rfl

/-! ### `goOn` -/

@[simp] theorem goOn_S (ms : List Move) (s : State) : (goOn ms s).S = s.S := rfl
@[simp] theorem goOn_BV (ms : List Move) (s : State) : (goOn ms s).BV = s.BV := rfl
@[simp] theorem goOn_K (ms : List Move) (s : State) : (goOn ms s).K = s.K := rfl
@[simp] theorem goOn_KLEN (ms : List Move) (s : State) : (goOn ms s).KLEN = s.KLEN := rfl
@[simp] theorem goOn_KV (ms : List Move) (s : State) : (goOn ms s).KV = s.KV := rfl
@[simp] theorem goOn_W (ms : List Move) (s : State) : (goOn ms s).W = s.W := rfl
@[simp] theorem goOn_SV (ms : List Move) (s : State) : (goOn ms s).SV = s.SV := rfl
@[simp] theorem goOn_ERR (ms : List Move) (s : State) : (goOn ms s).ERR = s.ERR := rfl
@[simp] theorem goOn_BUF (ms : List Move) (s : State) : (goOn ms s).BUF = s.BUF := rfl
@[simp] theorem goOn_KSRC (ms : List Move) (s : State) : (goOn ms s).KSRC = s.KSRC := rfl
@[simp] theorem goOn_responses (ms : List Move) (s : State) : (goOn ms s).responses = s.responses := rfl
@[simp] theorem goOn_host (ms : List Move) (s : State) : (goOn ms s).host = ms ++ s.host := rfl
@[simp] theorem goOn_hostResults (ms : List Move) (s : State) : (goOn ms s).hostResults = s.hostResults := rfl

/-! ### The whole updates: rewrite with these before comparing two states, so that no field is reduced -/

theorem respondOk_eq (d : BitVec 32) (s : State) :
    respondOk d s = { s with responses := s.responses ++ [⟨0x00, d⟩] } := rfl

theorem respondEod_eq (s : State) :
    respondEod s = { s with responses := s.responses ++ [⟨0x01, 0x00000000⟩] } := rfl

theorem raise_eq (e : Err) (s : State) :
    raise e s =
      { s with
        ERR := if s.ERR = 0x00 then e.code else s.ERR
        responses := s.responses ++ [⟨e.code, 0x00000000⟩] } := rfl

theorem respondOk_eq_afterOk (d : BitVec 32) (s : State) : respondOk d s = s.afterOk d := rfl

theorem raise_eq_afterError (e : Err) (s : State) : raise e s = s.afterError e.code := rfl

end Sys2Proof.Machine
end

