-- ==== Sys2Proof/Laws/Step.lean ====
section
/-!
SUPPORT. One step and several steps: a run taken apart into its first step, or into two runs.
-/

namespace Sys2Proof.Machine

/-- What a step makes of the next move of the HOST. -/
theorem step_cons {s : State} {m : Move} {rest : List Move} (h : s.host = m :: rest) :
    step s = makeMove m { s with host := rest } := by
  simp only [step, h]

/-- A run that begins with a step. -/
theorem run_succ {k : Nat} {s t : State} (h : step s = .next t) : core.run (k + 1) s = core.run k t := by
  have hs : core.step s = .next t := h
  simp only [Host.Core.run, hs]

/-- A run that begins with a run. -/
theorem run_add {a b : Nat} {s t : State} (h : core.run a s = .next t) :
    core.run (a + b) s = core.run b t := by
  induction a generalizing s with
  | zero =>
    cases h
    rw [Nat.zero_add]
  | succ a ih =>
    rw [show a + 1 + b = a + b + 1 by omega]
    cases hs : core.step s with
    | next u =>
      simp only [Host.Core.run, hs] at h ⊢
      exact ih h
    | fault r => simp only [Host.Core.run, hs] at h; cases h
    | refused r => simp only [Host.Core.run, hs] at h; cases h

end Sys2Proof.Machine
end

