-- ==== Sys2Proof/Tests/Slice0.lean ====
section
/-!
SUPPORT. The model's own tests: ill-formed commands, words of the spec decoded, one step of each command on
a small state, and a witness for the hypotheses of each obligation. Every expected value stands in the
spec, in the section its comment names.
-/

namespace Sys2Proof.Tests

open Sys2Proof.Machine

set_option Elab.async false

/-! ### Well-formedness: a term each check refuses (30_encoding.md R77, R85) -/

theorem test_wf_rcon : (Instr.rcon 16).wf = false ∧ (Instr.rcon 15).wf = true := by decide
theorem test_wf_rdrk_round : (Instr.rdrk 16 0).wf = false ∧ (Instr.rdrk 15 3).wf = true := by decide
theorem test_wf_rdrk_row : (Instr.rdrk 0 4).wf = false := by decide
theorem test_wf_rdrow : (Instr.rdrow 4).wf = false ∧ (Instr.rdrow 3).wf = true := by decide
theorem test_wf_addrk : (Instr.addrk 16).wf = false ∧ (Instr.addrk 15).wf = true := by decide
theorem test_wf_rdcsr : (Instr.rdcsr 2).wf = false ∧ (Instr.rdcsr 1).wf = true := by decide

/-! ### Decoding: the words of 95_test_vectors.md section 2 -/

/-- The word decodes to the command, and the command's word is this one. -/
def isWordOf (w : BitVec 64) (i : Instr) : Bool :=
  match decode w with
  | .ok j => j = i && encode i = w
  | .error _ => false

/-- The word is refused for this reason. -/
def isRefused (w : BitVec 64) (r : Reject) : Bool :=
  match decode w with
  | .ok _ => false
  | .error q => q = r

theorem test_decode_gfadd : isWordOf 0x1000578300000000 (.gfadd 0x57 0x83) = true := by decide
theorem test_decode_gfdbl : isWordOf 0x1100800000000000 (.gfdbl 0x80) = true := by decide
theorem test_decode_gfmul : isWordOf 0x1200578300000000 (.gfmul 0x57 0x83) = true := by decide
theorem test_decode_gfmix : isWordOf 0x13000000DB135345 (.gfmix 0xDB135345) = true := by decide
theorem test_decode_gfimix : isWordOf 0x130100008E4DA1BC (.gfimix 0x8E4DA1BC) = true := by decide
theorem test_decode_sbox : isWordOf 0x2000530000000000 (.sbox 0x53) = true := by decide
theorem test_decode_isbox : isWordOf 0x2001ED0000000000 (.isbox 0xED) = true := by decide
theorem test_decode_rcon : isWordOf 0x2100090000000000 (.rcon 9) = true := by decide
theorem test_decode_keyld : isWordOf 0x3000000000000000 (.keyld) = true := by decide
theorem test_decode_kexp : isWordOf 0x3100000000000000 (.kexp) = true := by decide
theorem test_decode_rdrk : isWordOf 0x32000A0300000000 (.rdrk 10 3) = true := by decide
theorem test_decode_load : isWordOf 0x4000000000000010 (.load 0x10) = true := by decide
theorem test_decode_dump : isWordOf 0x4100000000000010 (.dump 0x10) = true := by decide
theorem test_decode_cons : isWordOf 0x4200100000000000 (.cons 0 16) = true := by decide
theorem test_decode_rdrow : isWordOf 0x4300020000000000 (.rdrow 2) = true := by decide
theorem test_decode_subbytes : isWordOf 0x5000000000000000 (.subbytes) = true := by decide
theorem test_decode_isubbytes : isWordOf 0x5001000000000000 (.isubbytes) = true := by decide
theorem test_decode_shiftrows : isWordOf 0x5100000000000000 (.shiftrows) = true := by decide
theorem test_decode_ishiftrows : isWordOf 0x5101000000000000 (.ishiftrows) = true := by decide
theorem test_decode_mixcols : isWordOf 0x5200000000000000 (.mixcols) = true := by decide
theorem test_decode_imixcols : isWordOf 0x5201000000000000 (.imixcols) = true := by decide
theorem test_decode_addrk : isWordOf 0x53000E0000000000 (.addrk 14) = true := by decide
theorem test_decode_encrypt : isWordOf 0x6000000000000000 (.encrypt) = true := by decide
theorem test_decode_decrypt : isWordOf 0x6100000000000000 (.decrypt) = true := by decide
theorem test_decode_rdcsr : isWordOf 0x7000010000000000 (.rdcsr 1) = true := by decide

/-- Written forms of 30_encoding.md R84 and section 8: IMM before A, a vector in hexadecimal. -/
theorem test_written :
    (Instr.cons 0 16).written = "CONS 0, 16" ∧ (Instr.rdrk 10 3).written = "RDRK 10, 3" ∧
      (Instr.gfmix 0xDB135345).written = "GFMIX 0xDB135345" ∧ Instr.keyld.written = "KEYLD" := by decide

/-! ### Words that are no commands (95_test_vectors.md section 2, 30_encoding.md R81) -/

theorem test_illegal_zero : isRefused 0x0000000000000000 .unassignedOpc = true := by decide
theorem test_illegal_opc_ff : isRefused 0xFF00000000000000 .unassignedOpc = true := by decide
theorem test_illegal_opc_14 : isRefused 0x1400000000000000 .unassignedOpc = true := by decide
theorem test_illegal_encrypt_inv : isRefused 0x6001000000000000 .noInverse = true := by decide
theorem test_illegal_gfadd_inv : isRefused 0x1001578300000000 .noInverse = true := by decide
theorem test_illegal_gfadd_rsv : isRefused 0x1002578300000000 .reservedBits = true := by decide
theorem test_illegal_gfdbl_b : isRefused 0x1100800100000000 .unusedB = true := by decide
theorem test_illegal_gfmul_imm : isRefused 0x1200578300000001 .unusedImm = true := by decide
theorem test_illegal_rcon_16 : isRefused 0x2100100000000000 .unusedA = true := by decide
theorem test_illegal_rdrk_row : isRefused 0x32000A0400000000 .unusedB = true := by decide
theorem test_illegal_rdrow_4 : isRefused 0x4300040000000000 .unusedA = true := by decide
theorem test_illegal_load_b : isRefused 0x4000010000000010 .unusedA = true := by decide
theorem test_illegal_load_inv : isRefused 0x4001000000000010 .noInverse = true := by decide
theorem test_illegal_addrk_16 : isRefused 0x5300100000000000 .unusedA = true := by decide
theorem test_illegal_rdcsr_2 : isRefused 0x7000020000000000 .unusedA = true := by decide
theorem test_illegal_keyld_rsv : isRefused 0x3080000000000000 .reservedBits = true := by decide
theorem test_illegal_rdrk_inv : isRefused 0x3201FF0000000000 .noInverse = true := by decide

/-- The table's numbering of bits is the word's own (R75). -/
theorem test_table_word : decodeTableWord 64 0x1200578300000000 = some (.gfmul 0x57 0x83) := by decide

/-! ### Helpers: small states, and what a step shows -/

/-- The bytes `from`, `from + 1`, … -/
def bytesFrom (first n : Nat) : List Byte := (List.range n).map fun i => BitVec.ofNat 8 (first + i)

/-- Sixteen bytes written as one number, the first in the highest place. -/
def blockOf (x : Nat) : List Byte := (List.range 16).map fun i => BitVec.ofNat 8 (x >>> (8 * (15 - i)))

/-- A Block State with these flat bytes is held. -/
def holding (flat : List Byte) : State := { State.reset with S := some (gridOf flat), BV := true }

/-- A Key with these bytes is loaded. -/
def keyed (z : KeySize) (key : List Byte) (s : State) : State :=
  { s with K := keyRegister key, KLEN := some z, KV := true }

/-- BUF holds these bytes. -/
def buffer (bytes : List Byte) (s : State) : State := { s with BUF := Space.ofBytes bytes }

/-- KSRC holds these bytes. -/
def keySource (bytes : List Byte) (s : State) : State := { s with KSRC := Space.ofBytes bytes }

/-- The command answers with this status and data. -/
def answers (i : Instr) (s : State) (st : BitVec 8) (d : BitVec 32) : Bool :=
  match exec i s with
  | .next t => t.responses.getLast? = some ⟨st, d⟩
  | .fault _ => false
  | .refused _ => false

/-- The flat bytes of S after the command. -/
def blockAfter (i : Instr) (s : State) : Option (List Byte) :=
  match exec i s with
  | .next t => t.S.map flatOf
  | .fault _ => none
  | .refused _ => none

/-- The bytes of BUF after the command. -/
def bufAfter (i : Instr) (s : State) : Option (List Byte) :=
  match exec i s with
  | .next t => some (memRead t.BUF 0 (memLen t.BUF))
  | .fault _ => none
  | .refused _ => none

/-- The state after a step. -/
def after (r : Result) : State :=
  match r with
  | .next t => t
  | .fault _ => State.reset
  | .refused _ => State.reset

/-! ### One step of each command (96_derived_vectors.md sections 3.1 to 3.7) -/

theorem test_gfadd : answers (.gfadd 0x57 0x83) State.reset 0x00 0x000000D4 = true := by decide
theorem test_gfdbl_reduces : answers (.gfdbl 0x80) State.reset 0x00 0x0000001B = true := by decide
theorem test_gfdbl_does_not_reduce : answers (.gfdbl 0x7F) State.reset 0x00 0x000000FE = true := by decide
theorem test_gfmul : answers (.gfmul 0x57 0x83) State.reset 0x00 0x000000C1 = true := by decide +kernel
theorem test_gfmul_high : answers (.gfmul 0x80 0x0E) State.reset 0x00 0x00000041 = true := by decide +kernel
theorem test_gfmix : answers (.gfmix 0xDB135345) State.reset 0x00 0x8E4DA1BC = true := by decide +kernel
theorem test_gfmix_column : answers (.gfmix 0x01000000) State.reset 0x00 0x02010103 = true := by decide +kernel
theorem test_gfimix : answers (.gfimix 0x8E4DA1BC) State.reset 0x00 0xDB135345 = true := by decide +kernel
theorem test_gfimix_column : answers (.gfimix 0x00000001) State.reset 0x00 0x090D0B0E = true := by decide +kernel
theorem test_sbox : answers (.sbox 0x53) State.reset 0x00 0x000000ED = true := by decide +kernel
theorem test_isbox : answers (.isbox 0xB8) State.reset 0x00 0x0000009A = true := by decide +kernel
theorem test_rcon_last : answers (.rcon 9) State.reset 0x00 0x00000036 = true := by decide
theorem test_rcon_above : answers (.rcon 10) State.reset 0x22 0x00000000 = true := by decide

/-- KEYLD of 24 bytes: KINFO is 0x00C00C06 and STATUS 0x00000001 afterwards (section 3.3). -/
theorem test_keyld :
    answers (.rdcsr 1) (after (exec .keyld (keySource (bytesFrom 0 24) State.reset))) 0x00 0x00C00C06 = true ∧
    answers (.rdcsr 0) (after (exec .keyld (keySource (bytesFrom 0 24) State.reset))) 0x00 0x00000001 = true := by
  decide +kernel
theorem test_keyld_wrong_size : answers .keyld (keySource (bytesFrom 0 33) State.reset) 0x10 0 = true := by
  decide +kernel

/-- The key of V2 (95_test_vectors.md section 1.2). -/
def keyV2 : List Byte := blockOf 0x2B7E151628AED2A6ABF7158809CF4F3C

theorem test_kexp_not_ready : answers .kexp State.reset 0x21 0 = true := by decide
theorem test_kexp_sets_sv :
    answers (.rdcsr 0) (after (exec .kexp (keyed .bytes16 keyV2 State.reset))) 0x00 0x00000003 = true := by
  decide +kernel
theorem test_rdrk : answers (.rdrk 10 3) (keyed .bytes16 keyV2 State.reset) 0x00 0xA889C8A6 = true := by
  decide +kernel
theorem test_rdrk_above : answers (.rdrk 11 0) (keyed .bytes16 keyV2 State.reset) 0x22 0 = true := by
  decide +kernel
theorem test_load : blockAfter (.load 5) (buffer (bytesFrom 0 40) State.reset) = some (bytesFrom 5 16) := by
  decide +kernel
theorem test_load_end_of_data :
    answers (.load 0xFFFFFFF8) (buffer (bytesFrom 0 40) State.reset) 0x01 0 = true := by decide +kernel
theorem test_dump :
    bufAfter (.dump 1) (buffer (bytesFrom 0 20) (holding (bytesFrom 0x80 16))) =
      some (bytesFrom 0 1 ++ bytesFrom 0x80 16 ++ bytesFrom 17 3) := by decide +kernel
theorem test_dump_out_of_bounds :
    answers (.dump 25) (buffer (bytesFrom 0 40) (holding (bytesFrom 0 16))) 0x23 0 = true := by decide +kernel
theorem test_cons : blockAfter (.cons 24 16) (buffer (bytesFrom 0 40) State.reset) = some (bytesFrom 24 16) := by
  decide +kernel
/-- R165: `len = 17` is an error whatever BUF holds, here with exactly 16 bytes left. -/
theorem test_cons_seventeen :
    answers (.cons 24 17) (buffer (bytesFrom 0 40) State.reset) 0x11 0 = true := by decide +kernel
theorem test_rdrow : answers (.rdrow 1) (holding (bytesFrom 0 16)) 0x00 0x0105090D = true := by decide +kernel
theorem test_rdrow_not_ready : answers (.rdrow 0) State.reset 0x21 0 = true := by decide
theorem test_subbytes :
    blockAfter .subbytes (holding (bytesFrom 0 16)) = some (blockOf 0x637C777BF26B6FC53001672BFED7AB76) := by
  decide +kernel
theorem test_isubbytes :
    blockAfter .isubbytes (holding (blockOf 0x637C777BF26B6FC53001672BFED7AB76)) = some (bytesFrom 0 16) := by
  decide +kernel
theorem test_shiftrows :
    blockAfter .shiftrows (holding (bytesFrom 0 16)) = some (blockOf 0x00050A0F04090E03080D02070C01060B) := by
  decide +kernel
theorem test_ishiftrows :
    blockAfter .ishiftrows (holding (bytesFrom 0 16)) = some (blockOf 0x000D0A0704010E0B0805020F0C090603) := by
  decide +kernel
theorem test_mixcols :
    blockAfter .mixcols (holding (bytesFrom 0 16)) = some (blockOf 0x02070005060304010A0F080D0E0B0C09) := by
  decide +kernel
theorem test_imixcols :
    blockAfter .imixcols (holding (bytesFrom 0 16)) = some (blockOf 0x0A0F080D0E0B0C090207000506030401) := by
  decide +kernel
theorem test_addrk :
    blockAfter (.addrk 10) (keyed .bytes16 (bytesFrom 0 16) (holding (bytesFrom 0 16))) =
      some (blockOf 0x13101F7CE7914C10FB0EAD8041263ECA) := by decide +kernel
theorem test_addrk_above :
    answers (.addrk 11) (keyed .bytes16 (bytesFrom 0 16) (holding (bytesFrom 0 16))) 0x22 0 = true := by
  decide +kernel

/-- V4, AES-256 (95_test_vectors.md section 1.2). -/
theorem test_encrypt :
    blockAfter .encrypt
        (keyed .bytes32 (bytesFrom 0 32) (holding (blockOf 0x00112233445566778899AABBCCDDEEFF))) =
      some (blockOf 0x8EA2B7CA516745BFEAFC49904B496089) := by decide +kernel
theorem test_encrypt_not_ready : answers .encrypt (holding (bytesFrom 0 16)) 0x21 0 = true := by decide +kernel
/-- V3, AES-192 (95_test_vectors.md section 1.2). -/
theorem test_decrypt :
    blockAfter .decrypt
        (keyed .bytes24 (bytesFrom 0 24) (holding (blockOf 0xDDA97CA4864CDFE06EAF70A0EC0D7191))) =
      some (blockOf 0x00112233445566778899AABBCCDDEEFF) := by decide +kernel
theorem test_decrypt_not_ready : answers .decrypt (keyed .bytes16 keyV2 State.reset) 0x21 0 = true := by
  decide +kernel
theorem test_rdcsr_status :
    answers (.rdcsr 0) { keyed .bytes16 keyV2 (holding (bytesFrom 0 16)) with ERR := 0x21 } 0x00 0x00002105 =
      true := by decide +kernel
theorem test_rdcsr_kinfo : answers (.rdcsr 1) (keyed .bytes32 (bytesFrom 0 32) State.reset) 0x00 0x01000E08 = true := by
  decide +kernel

/-! ### The HOST's moves and procedures (96_derived_vectors.md section 3.9) -/

/-- The first move after reset runs the command placed there. -/
theorem test_fetch_word :
    (after (step (State.reset.withFetchWord 64 0x1000AA5500000000))).responses = [⟨0x00, 0x000000FF⟩] := by
  decide +kernel
theorem test_strip_last_marker :
    (stripPadding (Space.ofBytes [0x41, 0x01, 0x00, 0x01, 0x00, 0x00])).map (fun m => memRead m 0 (memLen m)) =
      some [0x41, 0x01, 0x00] := by decide +kernel
theorem test_strip_passes_over :
    (stripPadding (Space.ofBytes [0x41, 0x01, 0x42, 0x00])).map (fun m => memRead m 0 (memLen m)) =
      some [0x41] := by decide +kernel
theorem test_strip_corrupted : stripPadding (Space.ofBytes [0x41, 0x42]) = none := by decide +kernel
theorem test_append_full_block : memLen (appendPadding (Space.ofBytes (bytesFrom 0 16))) = 32 := by decide +kernel

/-! ### Witnesses: a state and operands that meet the hypotheses of each obligation, clause by clause -/

theorem witness_ResetMoveRestoresTheCore :
    State.host { State.reset with host := [.reset] } = .reset :: [] := rfl
theorem witness_NothingChangesWithoutAMove : State.reset.host = [] := rfl
theorem witness_StepRunsTheDecodedCommand :
    State.host { State.reset with host := [.command 0x3000000000000000] } = .command 0x3000000000000000 :: [] ∧
      isWordOf 0x3000000000000000 .keyld = true := by decide
theorem witness_IllegalWordsRaiseIllegalCommand :
    State.host { State.reset with host := [.command 0] } = .command 0 :: [] ∧
      (opcodeTable.all fun r => r.hits 0 = false) = true ∧
      State.host { State.reset with host := [.command 0x7000010000000000] } =
        .command 0x7000010000000000 :: [] ∧
      (opcodeTable.any fun r => r.hits 0x7000010000000000) = true := by decide

/-- Every clause at its largest and smallest operands: a write to the end, an append that fills BUF to
MAX_LEN, a truncation to nothing and to the length itself, an empty KSRC. -/
theorem witness_HostMovesHaveTheirEffect :
    (Space.ofBytes (bytesFrom 0 4)).wf = true ∧
    2 + [0x01#8, 0x02#8].length ≤ (Space.ofBytes (bytesFrom 0 4)).len ∧
    (Space.mk (2 ^ 32 - 2) []).wf = true ∧ (2 ^ 32 - 2) + [0x01#8].length ≤ 2 ^ 32 - 1 ∧
    4 ≤ (Space.ofBytes (bytesFrom 0 4)).len ∧ 0 ≤ (Space.ofBytes (bytesFrom 0 4)).len ∧
    ([] : List Byte).length ≤ 2 ^ 32 - 1 := by decide
theorem witness_HostMovesHaveTheirEffect_moves :
    State.host { State.reset with host := [.writeBuf 0 []] } = .writeBuf 0 [] :: [] ∧
    State.host { State.reset with host := [.appendBuf [0x01]] } = .appendBuf [0x01] :: [] ∧
    State.host { State.reset with host := [.truncateBuf 0] } = .truncateBuf 0 :: [] ∧
    State.host { State.reset with host := [.setKsrc []] } = .setKsrc [] :: [] ∧
    State.host { State.reset with host := [.readBuf 0 1] } = .readBuf 0 1 :: [] ∧
    State.host { State.reset with host := [.lengthBuf] } = .lengthBuf :: [] := by decide

theorem witness_DecodeEncodeIsIdentity : (Instr.rdrk 15 3).wf = true := by decide
theorem witness_EncodeDecodeIsIdentity : isWordOf 0x32000F0300000000 (.rdrk 15 3) = true := by decide
theorem witness_RconAnswersDoublingsOfOne : (9#8).toNat ≤ 9 ∧ 9 < (10#8).toNat := by decide
theorem witness_KeyldConstructsTheKey :
    (Space.ofBytes (bytesFrom 0 16)).len = KeySize.bytes16.klen ∧
    (Space.ofBytes (bytesFrom 0 24)).len = KeySize.bytes24.klen ∧
    (Space.ofBytes (bytesFrom 0 32)).len = KeySize.bytes32.klen ∧
    State.reset.KSRC.len ≠ 16 ∧ State.reset.KSRC.len ≠ 24 ∧ State.reset.KSRC.len ≠ 32 := by decide

/-- A state that holds a Key of 16 bytes, its schedule in W, and a Block State. -/
def ready : State :=
  { keyed .bytes16 keyV2 (holding (bytesFrom 0 16)) with
    W := scheduleRegister (expandKey keyV2), SV := true }

theorem witness_holdsKey : (keyed .bytes16 keyV2 State.reset).HoldsKey .bytes16 keyV2 :=
  ⟨rfl, rfl, by decide, rfl⟩
theorem witness_holdsKey32 :
    (keyed .bytes32 (bytesFrom 0 32) State.reset).HoldsKey .bytes32 (bytesFrom 0 32) :=
  ⟨rfl, rfl, by decide, rfl⟩
theorem witness_ready : ready.HoldsKey .bytes16 keyV2 ∧ ready.ScheduleIs keyV2 ∧
    ready.HoldsBlock (gridOf (bytesFrom 0 16)) :=
  ⟨⟨rfl, rfl, by decide, rfl⟩, fun _ => rfl, rfl, rfl⟩
/-- The same hypotheses with the schedule not yet computed. -/
theorem witness_not_expanded :
    (keyed .bytes16 keyV2 (holding (bytesFrom 0 16))).HoldsKey .bytes16 keyV2 ∧
    (keyed .bytes16 keyV2 (holding (bytesFrom 0 16))).ScheduleIs keyV2 ∧
    (keyed .bytes16 keyV2 (holding (bytesFrom 0 16))).HoldsBlock (gridOf (bytesFrom 0 16)) :=
  ⟨⟨rfl, rfl, by decide, rfl⟩, fun h => absurd h (by decide), rfl, rfl⟩

theorem witness_KexpComputesTheScheduleOnce :
    State.reset.KV = false ∧ ready.SV = true ∧ (keyed .bytes16 keyV2 State.reset).SV = false := by decide
theorem witness_ExpansionFollowsTheRecurrence :
    keyV2.length = KeySize.bytes16.klen ∧ 3 < KeySize.bytes16.nk ∧
    KeySize.bytes16.nk ≤ 4 ∧ 43 < 4 * (KeySize.bytes16.nr + 1) ∧
    (bytesFrom 0 32).length = KeySize.bytes32.klen ∧ 7 < KeySize.bytes32.nk ∧
    KeySize.bytes32.nk ≤ 8 ∧ 59 < 4 * (KeySize.bytes32.nr + 1) := by decide
theorem witness_RdrkAnswersTheSliceRow :
    State.reset.KV = false ∧ KeySize.bytes16.nr < (11#8).toNat ∧ (10#8).toNat ≤ KeySize.bytes16.nr ∧
    (3#8).toNat < 4 := by decide
theorem witness_LoadTakesTheBlock :
    ∀ i j : Fin 4, (buffer (bytesFrom 0 40) State.reset).BUF.get ((24#32).toNat + (i.val + 4 * j.val)) =
      some ((gridOf (bytesFrom 24 16)).get i j) := by decide +kernel
theorem witness_LoadReportsEndOfData :
    (buffer (bytesFrom 0 40) State.reset).BUF.len < (25#32).toNat + 16 ∧
    (24#32).toNat + 16 ≤ (buffer (bytesFrom 0 40) State.reset).BUF.len := by decide
theorem witness_DumpWritesTheBlock :
    (buffer (bytesFrom 0 40) (holding (bytesFrom 0 16))).BUF.wf = true ∧
    (buffer (bytesFrom 0 40) (holding (bytesFrom 0 16))).HoldsBlock (gridOf (bytesFrom 0 16)) ∧
    (24#32).toNat + 16 ≤ (buffer (bytesFrom 0 40) (holding (bytesFrom 0 16))).BUF.len :=
  ⟨by decide +kernel, ⟨rfl, rfl⟩, by decide⟩
theorem witness_DumpOutOfBoundsWritesNothing :
    State.reset.BV = false ∧ (buffer (bytesFrom 0 40) (holding (bytesFrom 0 16))).BV = true ∧
    (buffer (bytesFrom 0 40) (holding (bytesFrom 0 16))).BUF.len < (25#32).toNat + 16 := by decide
/-- Each clause of CONS at its edge: a length of 15, of 17, and 16 bytes of which one is missing; and the
block at the very end. -/
theorem witness_ConsNeedsExactlySixteenBytes :
    (15#8 ≠ 16) ∧ (17#8 ≠ 16) ∧ (buffer (bytesFrom 0 40) State.reset).BUF.len < (25#32).toNat + 16 := by decide
theorem witness_RdrowAnswersTheRow :
    (holding (bytesFrom 0 16)).HoldsBlock (gridOf (bytesFrom 0 16)) ∧ (3#8).toNat < 4 :=
  ⟨⟨rfl, rfl⟩, by decide⟩
theorem witness_LoadThenDumpLeavesBuf :
    (buffer (bytesFrom 0 40) State.reset).BUF.wf = true ∧
    (24#32).toNat + 16 ≤ (buffer (bytesFrom 0 40) State.reset).BUF.len := by decide +kernel
theorem witness_AddrkXorsTheSlice :
    KeySize.bytes16.nr < (11#8).toNat ∧ (10#8).toNat ≤ KeySize.bytes16.nr := by decide
theorem witness_RdcsrOneAnswersKinfo :
    State.reset.KV = false ∧ (keyed .bytes16 keyV2 State.reset).KV = true ∧
    (keyed .bytes16 keyV2 State.reset).KLEN = some .bytes16 ∧
    (keyed .bytes24 (bytesFrom 0 24) State.reset).KV = true ∧
    (keyed .bytes24 (bytesFrom 0 24) State.reset).KLEN = some .bytes24 ∧
    (keyed .bytes32 (bytesFrom 0 32) State.reset).KV = true ∧
    (keyed .bytes32 (bytesFrom 0 32) State.reset).KLEN = some .bytes32 := by decide

/-- A state that meets the invariant with a Key, its schedule, a Block State and a byte in BUF. -/
theorem witness_inv : State.Inv { ready with BUF := Space.ofBytes (bytesFrom 0 20) } :=
  ⟨.inl ⟨.bytes16, keyV2, rfl, rfl, by decide, rfl⟩,
    .inl ⟨rfl, .bytes16, keyV2, ⟨rfl, rfl, by decide, rfl⟩, rfl⟩, rfl, List.mem_cons_self,
    fun _ h => (List.not_mem_nil h).elim, by decide +kernel, by decide⟩

/-- The columns of the error table: NotReady, RangeError, each error of a byte space, and none. -/
theorem witness_ErrorsFollowTheTable :
    firstError (.addrk 12) State.reset = some 0x21 ∧ firstError (.rcon 10) State.reset = some 0x22 ∧
    firstError .keyld State.reset = some 0x10 ∧ firstError (.cons 0 16) State.reset = some 0x11 ∧
    firstError (.dump 25) (buffer (bytesFrom 0 40) (holding (bytesFrom 0 16))) = some 0x23 ∧
    firstError (.rcon 9) State.reset = none ∧ firstError (.load 0) State.reset = none := by decide
theorem witness_NotReadyExactlyWhenMissing :
    notReadyWhen .encrypt State.reset = true ∧
    notReadyWhen .encrypt (keyed .bytes16 keyV2 State.reset) = true ∧
    notReadyWhen .encrypt (holding (bytesFrom 0 16)) = true ∧ notReadyWhen .kexp State.reset = true ∧
    notReadyWhen (.load 0) State.reset = false := by decide
theorem witness_OneResponsePerCommand :
    exec (.gfdbl 0x80) State.reset = .next (State.reset.afterOk 0x0000001B) := rfl
theorem witness_ErrorsChangeOnlyErr :
    exec .kexp State.reset = .next (State.reset.afterError 0x21) ∧
    (State.reset.afterError 0x21).responses = State.reset.responses ++ [⟨0x21, 0⟩] ∧
    (0x21#8 ≠ 0x00) ∧ (0x21#8 ≠ 0x01) := ⟨rfl, rfl, by decide, by decide⟩
theorem witness_NoResultDependsOnErr : ∀ n, Instr.rdcsr 1 = .rdcsr n → n.getLsbD 0 = true := by
  intro n h
  cases h
  decide
theorem witness_CommandsWriteOnlyTheirRegisters :
    exec (.sbox 0x00) State.reset = .next (State.reset.afterOk 0x00000063) ∧ Instr.sbox 0x00 ≠ .keyld ∧
    needsKey (.sbox 0x00) = false ∧ writesBlock (.sbox 0x00) = false ∧
    (∀ off, Instr.sbox 0x00 ≠ .load off) ∧ (∀ off len, Instr.sbox 0x00 ≠ .cons off len) ∧
    (∀ off, Instr.sbox 0x00 ≠ .dump off) := by
  exact ⟨rfl, by decide, rfl, rfl, fun _ h => (nomatch h), fun _ _ h => (nomatch h), fun _ h => (nomatch h)⟩
theorem witness_ScheduleIsComputedAtMostOnce :
    exec .kexp ready = .next (ready.afterOk 0x00000000) ∧ Instr.kexp ≠ .keyld ∧ ready.SV = true :=
  ⟨rfl, by decide, rfl⟩
theorem witness_StepKeepsTheInvariant :
    State.reset.Inv ∧ step State.reset = .next State.reset :=
  ⟨⟨.inr ⟨rfl, rfl, rfl⟩, .inr ⟨rfl, rfl⟩, rfl, List.mem_cons_self,
    fun _ h => (List.not_mem_nil h).elim, by decide, by decide⟩, rfl⟩
theorem witness_EveryCommandFinishes :
    State.Inv { ready with host := [.command 0] } ∧
    State.host { ready with host := [.command 0] } = .command 0 :: [] :=
  ⟨⟨.inl ⟨.bytes16, keyV2, rfl, rfl, by decide, rfl⟩,
    .inl ⟨rfl, .bytes16, keyV2, ⟨rfl, rfl, by decide, rfl⟩, rfl⟩, rfl, List.mem_cons_self,
    fun _ h => (List.not_mem_nil h).elim, by decide, by decide⟩, rfl⟩
theorem witness_ErrIsStickyUntilReset :
    step (State.reset.afterError 0x21) = .next (State.reset.afterError 0x21) ∧
    (State.reset.afterError 0x21).ERR ≠ 0x00 ∧
    ∀ rest, (State.reset.afterError 0x21).host ≠ .reset :: rest :=
  ⟨rfl, by decide, fun _ h => (nomatch h)⟩
theorem witness_KeyChangesOnlyByKeyldOrReset : step State.reset = .next State.reset := rfl
theorem witness_padding : (Space.ofBytes (bytesFrom 0 16)).wf = true ∧ Space.empty.wf = true := by decide
theorem witness_StripTruncatesAtTheLastMarker :
    (Space.ofBytes [0x01]).wf = true ∧ stripPadding (Space.ofBytes [0x01]) = some Space.empty ∧
    stripPadding Space.empty = none := by decide
theorem witness_DecryptStreamUndoesEncryptStream :
    State.Inv { ready with host := [.encryptStream, .decryptStream] } ∧
    State.KV { ready with host := [.encryptStream, .decryptStream] } = true ∧
    State.reset.BUF.len ≤ 2 ^ 32 - 17 :=
  ⟨⟨.inl ⟨.bytes16, keyV2, rfl, rfl, by decide, rfl⟩,
    .inl ⟨rfl, .bytes16, keyV2, ⟨rfl, rfl, by decide, rfl⟩, rfl⟩, rfl, List.mem_cons_self,
    fun _ h => (List.not_mem_nil h).elim, by decide, by decide⟩, rfl, by decide⟩

end Sys2Proof.Tests
end

section
/-!
The step with no move of the HOST pending (spec 00_scope.md R6, 10_state.md R30).
-/

namespace Sys2Proof.Machine

/-- The companion of `step_cons`: the CORE has no step of its own (R6). -/
theorem step_nil {s : State} (h : s.host = []) : step s = .next s := by
  simp only [step, h]

/-- Settles O3: the state in which the HOST has nothing pending is the first case of `step`. -/
theorem nothingChangesWithoutAMove : Obligations.NothingChangesWithoutAMove :=
  fun _ noMove => step_nil noMove

end Sys2Proof.Machine
end

section
/-!
Everything a command can make of a state, said once for all 25 commands: an error raised, a response
alone, or the registers of R40's column of writes (spec 10_state.md R40).
-/

namespace Sys2Proof.Machine

/-- The state a command works on: the state it is given, or, for the commands that need a Key, that state
after `ensure_schedule` (R144). -/
inductive Prepared (i : Instr) (s : State) : State → Prop
  | unchanged : Prepared i s s
  | scheduled (z : KeySize) (u : State) (hi : needsKey i = true) (hk : s.KV = true)
      (hz : s.KLEN = some z) (hu : ensureSchedule z s = some u) : Prepared i s u

/-- What a command can make of a state, one case per kind of register change. -/
inductive Effect (i : Instr) (s : State) : State → Prop
  /-- An error of the CORE (R262). -/
  | raised (e : Err) (he : e.code ∈ recordableCodes) : Effect i s (raise e s)
  /-- A response, after `ensure_schedule` where the command needs it. -/
  | answered (u : State) (d : BitVec 32) (hu : Prepared i s u) : Effect i s (respondOk d u)
  /-- A function of the Block State in place of it, after `ensure_schedule` where the command needs it. -/
  | transformed (u : State) (g g' : Grid) (hi : writesBlock i = true) (hu : Prepared i s u)
      (hg : u.S = some g) : Effect i s (respondOk 0x00000000 { u with S := some g' })
  /-- A block of BUF taken by LOAD or CONS. -/
  | blockTaken (g : Grid) (hi : (∃ off, i = .load off) ∨ ∃ off len, i = .cons off len) :
      Effect i s (respondOk 0x00000000 { s with S := some g, BV := true })
  /-- LOAD at the end of the data (R260). -/
  | endOfData (off : BitVec 32) (hi : i = .load off) :
      Effect i s (respondEod { s with S := none, BV := false })
  /-- The Block State written inside BUF by DUMP (R164). -/
  | blockWritten (off : BitVec 32) (g : Grid) (hi : i = .dump off) (ho : off.toNat + 16 ≤ s.BUF.len) :
      Effect i s (respondOk 0x00000000 { s with BUF := memWrite s.BUF off.toNat (flatOf g) })
  /-- A Key loaded from KSRC, its schedule not yet computed (R145). -/
  | keyLoaded (z : KeySize) (hi : i = .keyld) (hz : KeySize.ofLength s.KSRC.len = some z) :
      Effect i s (respondOk 0x00000000
        { s with
          K := keyRegister (memRead s.KSRC 0 s.KSRC.len), KLEN := some z, KV := true, SV := false
          W := scheduleNone })

/-! ### The error codes -/

/-- What ERR can hold is a status a response can have. -/
theorem mem_responseCodes_of_recordable {c : BitVec 8} (h : c ∈ recordableCodes) :
    c ∈ responseCodes := by
  simp only [recordableCodes, responseCodes, List.mem_cons] at h ⊢
  tauto

/-! ### The state a command works on -/

/-- `ensure_schedule` writes W and SV only, and nothing when SV = 1 (R144). -/
theorem Prepared.writes_schedule {i : Instr} {s u : State} (h : Prepared i s u) :
    ∃ w sv, u = { s with W := w, SV := sv } ∧
      (needsKey i = false ∨ s.SV = true → w = s.W ∧ sv = s.SV) := by
  cases h with
  | unchanged => exact ⟨s.W, s.SV, rfl, fun _ => ⟨rfl, rfl⟩⟩
  | scheduled z u hi hk hz hu =>
    obtain ⟨-, rfl⟩ | ⟨hsv, key, -, rfl⟩ := ensureSchedule_cases hu
    · exact ⟨_, _, rfl, fun _ => ⟨rfl, rfl⟩⟩
    · exact ⟨_, _, rfl, fun hn => by simp [hi, hsv] at hn⟩

/-! ### Every command has one of the effects -/

/-- The transforms of the Block State (R185 to R190). -/
theorem transformBlock_effect {i : Instr} {f : Grid → Grid} {s t : State} (hi : writesBlock i = true)
    (h : transformBlock f s = .next t) : Effect i s t := by
  obtain ⟨-, rfl⟩ | ⟨-, g, hg, rfl⟩ := transformBlock_next h
  · exact .raised .notReady (by decide)
  · exact .transformed s g _ hi .unchanged hg

/-- ADDRK, ENCRYPT and DECRYPT (R191, R202, R203). -/
theorem cipherBlock_effect {i : Instr} {big : Nat → Bool} {f : Grid → List Quad → Nat → Grid}
    {s t : State} (hk : needsKey i = true) (hi : writesBlock i = true)
    (h : cipherBlock big f s = .next t) : Effect i s t := by
  obtain ⟨-, rfl⟩ | ⟨hkv, -, z, hz, ⟨-, rfl⟩ | ⟨-, u, ws, g, hu, -, hg, rfl⟩⟩ := cipherBlock_next h
  · exact .raised .notReady (by decide)
  · exact .raised .rangeError (by decide)
  · exact .transformed u g _ hi (.scheduled z u hk hkv hz hu) hg

/-- A command that only answers. -/
theorem respondOk_effect {i : Instr} {d : BitVec 32} {s t : State}
    (h : (.next (respondOk d s) : Result) = .next t) : Effect i s t := by
  cases h
  exact .answered s d .unchanged

/-! The key commands (R145 to R147). -/

theorem execKeyld_effect {s t : State} (h : execKeyld s = .next t) : Effect .keyld s t := by
  obtain ⟨-, rfl⟩ | ⟨z, hz, rfl⟩ := execKeyld_next h
  · exact .raised .keySizeError (by decide)
  · exact .keyLoaded z rfl hz

theorem execKexp_effect {s t : State} (h : execKexp s = .next t) : Effect .kexp s t := by
  obtain ⟨-, rfl⟩ | ⟨hk, z, u, hz, hu, rfl⟩ := execKexp_next h
  · exact .raised .notReady (by decide)
  · exact .answered u _ (.scheduled z u rfl hk hz hu)

theorem execRdrk_effect {round row : BitVec 8} {s t : State} (h : execRdrk round row s = .next t) :
    Effect (.rdrk round row) s t := by
  obtain ⟨-, rfl⟩ | ⟨hk, z, hz, ⟨-, rfl⟩ | ⟨-, u, d, hu, rfl⟩⟩ := execRdrk_next h
  · exact .raised .notReady (by decide)
  · exact .raised .rangeError (by decide)
  · exact .answered u d (.scheduled z u rfl hk hz hu)

/-! The commands between the Block State and BUF (R163 to R165). -/

theorem execLoad_effect {off : BitVec 32} {s t : State} (h : execLoad off s = .next t) :
    Effect (.load off) s t := by
  obtain ⟨-, rfl⟩ | ⟨-, rfl⟩ := execLoad_next h
  · exact .endOfData off rfl
  · exact .blockTaken _ (.inl ⟨off, rfl⟩)

theorem execDump_effect {off : BitVec 32} {s t : State} (h : execDump off s = .next t) :
    Effect (.dump off) s t := by
  obtain ⟨-, rfl⟩ | ⟨-, -, rfl⟩ | ⟨-, ho, g, -, rfl⟩ := execDump_next h
  · exact .raised .notReady (by decide)
  · exact .raised .boundsError (by decide)
  · exact .blockWritten off g rfl ho

theorem execCons_effect {off : BitVec 32} {len : BitVec 8} {s t : State}
    (h : execCons off len s = .next t) : Effect (.cons off len) s t := by
  obtain ⟨-, rfl⟩ | ⟨-, -, rfl⟩ := execCons_next h
  · exact .raised .stateSizeError (by decide)
  · exact .blockTaken _ (.inr ⟨off, len, rfl⟩)

/-! The commands that answer from a table or a register (R126, R166, R215). -/

theorem execRcon_effect {x : BitVec 8} {s t : State} (h : execRcon x s = .next t) :
    Effect (.rcon x) s t := by
  obtain ⟨-, rfl⟩ | ⟨-, d, rfl⟩ := execRcon_next h
  · exact .raised .rangeError (by decide)
  · exact .answered s d .unchanged

theorem execRdrow_effect {row : BitVec 8} {s t : State} (h : execRdrow row s = .next t) :
    Effect (.rdrow row) s t := by
  obtain ⟨-, rfl⟩ | ⟨-, d, rfl⟩ := execRdrow_next h
  · exact .raised .notReady (by decide)
  · exact .answered s d .unchanged

theorem execRdcsr_effect {n : BitVec 8} {s t : State} (h : execRdcsr n s = .next t) :
    Effect (.rdcsr n) s t := by
  obtain ⟨d, rfl⟩ := execRdcsr_next h
  exact .answered s d .unchanged

/-- Everything a command can answer a next state with. -/
theorem exec_effect {i : Instr} {s t : State} (h : exec i s = .next t) : Effect i s t := by
  cases i with
  | gfadd | gfdbl | gfmul | gfmix | gfimix | sbox | isbox => exact respondOk_effect h
  | rcon => exact execRcon_effect h
  | keyld => exact execKeyld_effect h
  | kexp => exact execKexp_effect h
  | rdrk => exact execRdrk_effect h
  | load => exact execLoad_effect h
  | dump => exact execDump_effect h
  | cons => exact execCons_effect h
  | rdrow => exact execRdrow_effect h
  | rdcsr => exact execRdcsr_effect h
  | subbytes | isubbytes | shiftrows | ishiftrows | mixcols | imixcols =>
    exact transformBlock_effect rfl h
  | addrk => rw [exec_addrk, execAddrk] at h; exact cipherBlock_effect rfl rfl h
  | encrypt => rw [exec_encrypt, execEncrypt] at h; exact cipherBlock_effect rfl rfl h
  | decrypt => rw [exec_decrypt, execDecrypt] at h; exact cipherBlock_effect rfl rfl h

end Sys2Proof.Machine
end

section
/-!
What the commands leave alone, read off their effects (spec 10_state.md R25, R28, R39 (f), R40).
-/

namespace Sys2Proof.Machine

/-- Every effect gives one response, which is OK or EOD unless the effect is `raise` (R78). -/
theorem Effect.response {i : Instr} {s t : State} (h : Effect i s t) :
    ∃ r : Response, t.responses = s.responses ++ [r] ∧
      (r.st = 0x00 ∨ r.st = 0x01 ∨ ∃ e : Err, r.st = e.code ∧ t = raise e s) := by
  cases h with
  | raised e => exact ⟨_, raise_responses e s, .inr (.inr ⟨e, rfl, rfl⟩)⟩
  | answered u d hu | transformed u g g' _ hu =>
    obtain ⟨w, sv, rfl, -⟩ := hu.writes_schedule
    exact ⟨_, respondOk_responses _ _, .inl rfl⟩
  | blockTaken | blockWritten | keyLoaded => exact ⟨_, respondOk_responses _ _, .inl rfl⟩
  | endOfData => exact ⟨_, respondEod_responses _, .inr (.inl rfl)⟩

/-- An error response comes from `raise` (R262). -/
theorem Effect.eq_raise_of_error {i : Instr} {s t : State} {r : Response} (h : Effect i s t)
    (hr : t.responses = s.responses ++ [r]) (hok : r.st ≠ 0x00) (heod : r.st ≠ 0x01) :
    ∃ e : Err, r.st = e.code ∧ t = raise e s := by
  obtain ⟨r', hr', hst⟩ := h.response
  obtain rfl : r' = r := List.singleton_inj.1 (List.append_cancel_left (hr'.symm.trans hr))
  obtain h0 | h1 | he := hst
  · exact absurd h0 hok
  · exact absurd h1 heod
  · exact he

/-- Settles O46: the response of an error is given by `raise`, which writes ERR and nothing else. -/
theorem errorsChangeOnlyErr : Obligations.ErrorsChangeOnlyErr := by
  intro i s t r h hr hok heod
  obtain ⟨e, he, rfl⟩ := (exec_effect h).eq_raise_of_error hr hok heod
  exact ⟨rfl, by rw [he, raise_ERR]⟩

/-- Settles O48, effect by effect. -/
theorem commandsWriteOnlyTheirRegisters : Obligations.CommandsWriteOnlyTheirRegisters := by
  intro i s t h
  cases exec_effect h with
  | raised => simp
  | answered u d hu =>
    obtain ⟨w, sv, rfl, hw⟩ := hu.writes_schedule
    simpa using fun _ hn => hw (.inl hn)
  | transformed u g g' hi hu hg =>
    obtain ⟨w, sv, rfl, hw⟩ := hu.writes_schedule
    simpa [hi] using fun _ hn => hw (.inl hn)
  | blockTaken g hi => obtain ⟨off, rfl⟩ | ⟨off, len, rfl⟩ := hi <;> simp [writesBlock]
  | endOfData off hi => subst hi; simp [writesBlock]
  | blockWritten off g hi => subst hi; simp
  | keyLoaded z hi => subst hi; simp [needsKey]

/-- Settles O49: only KEYLD and `ensure_schedule` write W and SV, and the latter not when SV = 1. -/
theorem scheduleIsComputedAtMostOnce : Obligations.ScheduleIsComputedAtMostOnce := by
  intro i s t h hi hsv
  cases exec_effect h with
  | answered u d hu | transformed u g g' _ hu hg =>
    obtain ⟨w, sv, rfl, hw⟩ := hu.writes_schedule
    simpa [hsv] using hw (.inr hsv)
  | raised | blockTaken | endOfData | blockWritten => simpa using hsv
  | keyLoaded z hk => exact absurd hk hi

end Sys2Proof.Machine
end

section
/-!
What a move of the HOST can make of a state: a reset, a command (its own, or one of a stream procedure),
or nothing but the byte spaces and what the HOST holds (spec 49_host_padding_and_streaming.md R220 to
R225, 70_reset_and_hazards.md R286).
-/

namespace Sys2Proof.Machine

/-- No register of the CORE and no response changed, and the byte spaces kept their canonical form: all
that the moves of R220 other than commands and reset can do. -/
structure HostOnly (s t : State) : Prop where
  S : t.S = s.S
  BV : t.BV = s.BV
  K : t.K = s.K
  KLEN : t.KLEN = s.KLEN
  KV : t.KV = s.KV
  W : t.W = s.W
  SV : t.SV = s.SV
  ERR : t.ERR = s.ERR
  responses : t.responses = s.responses
  buf_wf : s.BUF.wf = true → t.BUF.wf = true
  ksrc_wf : s.KSRC.wf = true → t.KSRC.wf = true

/-- What a move can make of a state. -/
inductive MoveEffect (m : Move) (s t : State) : Prop
  /-- The reset of the CORE. -/
  | reset (hm : m = .reset) (ht : t = resetCore s)
  /-- A move that gives the CORE no command. -/
  | host (ht : HostOnly s t)
  /-- A word that decodes. -/
  | command (w : BitVec 64) (i : Instr) (hm : m = .command w) (hi : decode w = .ok i)
      (ht : exec i s = .next t)
  /-- A word that does not decode. -/
  | illegal (ht : t = raise .illegalCommand s)
  /-- A command of a stream procedure, and what the procedure makes of its response. -/
  | stream (i : Instr) (u : State) (hi : i ≠ .keyld) (hu : exec i s = .next u) (ht : HostOnly u t)

/-! ### Moves that give the CORE no command -/

/-- Other pending moves and other results of the HOST. -/
theorem HostOnly.of_host (s : State) (ms : List Move) (rs : List HostResult) :
    HostOnly s { s with host := ms, hostResults := rs } :=
  ⟨rfl, rfl, rfl, rfl, rfl, rfl, rfl, rfl, rfl, id, id⟩

/-- Another BUF in canonical form. -/
theorem HostOnly.of_buf {s : State} {m : Space} (rs : List HostResult) (h : s.BUF.wf = true → m.wf = true) :
    HostOnly s { s with BUF := m, hostResults := rs } :=
  ⟨rfl, rfl, rfl, rfl, rfl, rfl, rfl, rfl, rfl, h, id⟩

/-- Another KSRC in canonical form. -/
theorem HostOnly.of_ksrc {s : State} {m : Space} (h : m.wf = true) : HostOnly s { s with KSRC := m } :=
  ⟨rfl, rfl, rfl, rfl, rfl, rfl, rfl, rfl, rfl, id, fun _ => h⟩

/-- The end of the data writes no register (R224, R225). -/
theorem streamEnd_hostOnly (d : Direction) (s : State) : HostOnly s (streamEnd d s) := by
  cases d
  · exact .of_host s _ _
  · exact .of_host s _ _

/-- The scan of `strip_padding` finds an offset below where it begins. -/
theorem stripScan_lt {m : Space} {n i : Nat} (h : stripScan m n = some i) : i < n := by
  induction n with
  | zero => cases h
  | succ n ih =>
    unfold stripScan at h
    split at h
    · cases h; exact Nat.lt_succ_self _
    · exact Nat.lt_succ_of_lt (ih h)

/-- Stripping keeps the canonical form (R222). -/
theorem stripPadding_wf {m n : Space} (h : stripPadding m = some n) (hm : m.wf = true) : n.wf = true := by
  obtain ⟨i, hi, rfl⟩ := Option.map_eq_some_iff.1 h
  exact memTruncate_wf i hm (Nat.le_of_lt (stripScan_lt hi))

/-! ### The commands of the stream procedures -/

/-- The word of a command decodes as the command's fields do. -/
theorem decode_encode_fields (i : Instr) : decode (encode i) = decodeFields i.fields := by
  rw [decode, encode, fieldsOf_wordOf]

/-- Issuing the word of a command of a stream procedure executes that command. -/
theorem issue_encode {i : Instr} (h : decodeFields i.fields = .ok i) (s : State) :
    issue (encode i) s = exec i s := by
  rw [issue, decode_encode_fields, h]

theorem decodeFields_load (off : BitVec 32) :
    decodeFields (Instr.load off).fields = .ok (.load off) := by
  simp [decodeFields, Instr.fields, opcodeRow]

theorem decodeFields_dump (off : BitVec 32) :
    decodeFields (Instr.dump off).fields = .ok (.dump off) := by
  simp [decodeFields, Instr.fields, opcodeRow]

theorem decodeFields_streamCipherInstr (d : Direction) :
    decodeFields (streamCipherInstr d).fields = .ok (streamCipherInstr d) := by
  cases d <;> rfl

/-- A stream procedure executes its command, and what it does with the response writes no register when
its continuations write none (R229). -/
theorem streamIssue_next {i : Instr} {onOk : State → State} {onEod : Option (State → State)} {s t : State}
    (hi : decodeFields i.fields = .ok i) (hok : ∀ u, HostOnly u (onOk u))
    (heod : ∀ f ∈ onEod, ∀ u, HostOnly u (f u)) (h : streamIssue i onOk onEod s = .next t) :
    ∃ u, exec i s = .next u ∧ HostOnly u t := by
  unfold streamIssue at h
  rw [issue_encode hi] at h
  split at h
  case h_1 u hu =>
    refine ⟨u, hu, ?_⟩
    split at h <;> cases h
    · split
      · exact hok u
      · exact .of_host u _ _
    · split
      · exact heod _ rfl u
      · split
        · exact hok u
        · exact .of_host u _ _
    · exact .of_host _ _ _
  case h_2 | h_3 => cases h

/-- A stream procedure goes on at an offset that has an operand (R60, R85). -/
theorem streamAt_next {off : Nat} {s t : State} {k : BitVec 32 → State → Result}
    (h : streamAt off s k = .next t) : k (BitVec.ofNat 32 off) s = .next t := by
  unfold streamAt at h
  split at h
  · exact h
  · cases h

/-! ### Every move has one of the effects -/

/-- Issuing a word executes its command or raises IllegalCommand (R81, R86). -/
theorem issue_effect {w : BitVec 64} {s t : State} (h : issue w s = .next t) :
    MoveEffect (.command w) s t := by
  unfold issue at h
  split at h
  · exact .command w _ rfl ‹_› h
  · cases h; exact .illegal rfl

/-- A move that is refused under a condition answers only where the condition fails. -/
theorem next_of_guard {c : Prop} [Decidable c] {r : Refusal} {u t : State}
    (h : (if c then .refused r else .next u : Result) = .next t) : ¬ c ∧ t = u := by
  by_cases hc : c
  · rw [if_pos hc] at h; cases h
  · rw [if_neg hc] at h; cases h; exact ⟨hc, rfl⟩

/-! The capabilities of the HOST on BUF and KSRC (R51, R220). -/

theorem writeBuf_hostOnly {off : Nat} {bytes : List Byte} {s t : State}
    (h : makeMove (.writeBuf off bytes) s = .next t) : HostOnly s t := by
  obtain ⟨hc, rfl⟩ := next_of_guard h
  exact .of_buf _ fun hw => memWrite_wf off bytes hw (Nat.not_lt.1 hc)

theorem appendBuf_hostOnly {bytes : List Byte} {s t : State}
    (h : makeMove (.appendBuf bytes) s = .next t) : HostOnly s t := by
  obtain ⟨hc, rfl⟩ := next_of_guard h
  exact .of_buf _ fun hw => memAppend_wf bytes hw (Nat.not_lt.1 hc)

theorem truncateBuf_hostOnly {n : Nat} {s t : State}
    (h : makeMove (.truncateBuf n) s = .next t) : HostOnly s t := by
  obtain ⟨hc, rfl⟩ := next_of_guard h
  exact .of_buf _ fun hw => memTruncate_wf n hw (Nat.not_lt.1 hc)

theorem setKsrc_hostOnly {bytes : List Byte} {s t : State}
    (h : makeMove (.setKsrc bytes) s = .next t) : HostOnly s t := by
  obtain ⟨hc, rfl⟩ := next_of_guard h
  exact .of_ksrc (Space.ofBytes_wf (Nat.not_lt.1 hc))

/-! The padding codec (R221, R222). -/

theorem appendPadding_hostOnly {s t : State} (h : makeMove .appendPadding s = .next t) :
    HostOnly s t := by
  obtain ⟨hc, rfl⟩ := next_of_guard h
  rw [appendPadding, memLen, memAppend_len] at hc
  exact .of_buf _ fun hw => memAppend_wf _ hw (Nat.not_lt.1 hc)

theorem stripPadding_hostOnly {s t : State} (h : makeMove .stripPadding s = .next t) :
    HostOnly s t := by
  simp only [makeMove] at h
  split at h <;> cases h
  · exact .of_host s _ _
  · exact .of_buf _ (stripPadding_wf ‹_›)

/-! The stages of the stream procedures (R224, R225). -/

theorem streamLoad_effect {d : Direction} {off : Nat} {s t : State}
    (h : makeMove (.streamLoad d off) s = .next t) : MoveEffect (.streamLoad d off) s t := by
  rw [makeMove] at h
  obtain ⟨u, hu, ht⟩ := streamIssue_next (decodeFields_load _) (fun u => .of_host u _ _)
    (by rintro f ⟨⟩ u; exact streamEnd_hostOnly d u) (streamAt_next h)
  exact .stream _ u (by simp) hu ht

theorem streamCipher_effect {d : Direction} {off : Nat} {s t : State}
    (h : makeMove (.streamCipher d off) s = .next t) : MoveEffect (.streamCipher d off) s t := by
  obtain ⟨u, hu, ht⟩ := streamIssue_next (decodeFields_streamCipherInstr d) (fun u => .of_host u _ _)
    (by simp) h
  exact .stream _ u (by cases d <;> simp [streamCipherInstr]) hu ht

theorem streamDump_effect {d : Direction} {off : Nat} {s t : State}
    (h : makeMove (.streamDump d off) s = .next t) : MoveEffect (.streamDump d off) s t := by
  rw [makeMove] at h
  obtain ⟨u, hu, ht⟩ := streamIssue_next (decodeFields_dump _) (fun u => .of_host u _ _) (by simp)
    (streamAt_next h)
  exact .stream _ u (by simp) hu ht

/-- Everything a move can answer a next state with. -/
theorem makeMove_effect {m : Move} {s t : State} (h : makeMove m s = .next t) : MoveEffect m s t := by
  cases m with
  | command => exact issue_effect h
  | reset => cases h; exact .reset rfl rfl
  | readBuf | lengthBuf | encryptStream | decryptStream => cases h; exact .host (.of_host s _ _)
  | writeBuf => exact .host (writeBuf_hostOnly h)
  | appendBuf => exact .host (appendBuf_hostOnly h)
  | truncateBuf => exact .host (truncateBuf_hostOnly h)
  | setKsrc => exact .host (setKsrc_hostOnly h)
  | appendPadding => exact .host (appendPadding_hostOnly h)
  | stripPadding => exact .host (stripPadding_hostOnly h)
  | streamLoad => exact streamLoad_effect h
  | streamCipher => exact streamCipher_effect h
  | streamDump => exact streamDump_effect h

/-- Everything a step can answer a next state with: nothing without a pending move, else the effect of the
next move on the state it was taken from. -/
theorem step_effect {s t : State} (h : step s = .next t) :
    t = s ∨ ∃ m rest, s.host = m :: rest ∧ MoveEffect m { s with host := rest } t := by
  cases hm : s.host with
  | nil =>
    rw [step_nil hm] at h
    cases h
    exact .inl rfl
  | cons m rest =>
    rw [step_cons hm] at h
    exact .inr ⟨m, rest, rfl, makeMove_effect h⟩

end Sys2Proof.Machine
end

section
/-!
Every step keeps the invariant (spec 10_state.md R37, R39 (a) to (d)).
-/

namespace Sys2Proof.Machine

/-! ### Responses and errors -/

/-- A response of the table keeps the invariant. -/
theorem State.Inv.answer {s : State} (h : s.Inv) {st : BitVec 8} {d : BitVec 32}
    (hr : (⟨st, d⟩ : Response).Ok) : (answer st d s).Inv := by
  obtain ⟨hkey, hsch, hblk, herr, hres, hbuf, hksrc⟩ := State.inv_iff.1 h
  refine ⟨hkey.congr rfl rfl rfl, hsch.congr rfl rfl rfl rfl rfl, hblk.congr rfl rfl, herr, ?_, hbuf, hksrc⟩
  intro r hmem
  rw [answer_responses, List.mem_append, List.mem_singleton] at hmem
  obtain hmem | rfl := hmem
  · exact hres r hmem
  · exact hr

theorem State.Inv.respondOk {s : State} (h : s.Inv) (d : BitVec 32) : (respondOk d s).Inv :=
  h.answer ⟨List.mem_cons_self, fun hn => absurd rfl hn⟩

theorem State.Inv.respondEod {s : State} (h : s.Inv) : (respondEod s).Inv :=
  h.answer ⟨by decide, fun _ => rfl⟩

/-- Another code in ERR keeps the invariant, if ERR can hold it. -/
theorem State.Inv.setErr {s : State} (h : s.Inv) {c : BitVec 8} (hc : c ∈ recordableCodes) :
    State.Inv { s with ERR := c } := by
  obtain ⟨hkey, hsch, hblk, -, hres, hbuf, hksrc⟩ := State.inv_iff.1 h
  exact ⟨hkey.congr rfl rfl rfl, hsch.congr rfl rfl rfl rfl rfl, hblk.congr rfl rfl, hc, hres, hbuf, hksrc⟩

/-- An error of the CORE keeps the invariant (R262). -/
theorem State.Inv.raise {s : State} (h : s.Inv) {e : Err} (he : e.code ∈ recordableCodes) :
    (raise e s).Inv := by
  obtain ⟨-, -, -, hold, -⟩ := State.inv_iff.1 h
  have herr : (if s.ERR = 0x00 then e.code else s.ERR) ∈ recordableCodes := by
    split
    · exact he
    · exact hold
  exact (h.setErr herr).answer ⟨mem_responseCodes_of_recordable he, fun _ => rfl⟩

/-! ### The registers -/

/-- A Block State taken or lost together with BV (R39 d). -/
theorem State.Inv.setBlock {s : State} (h : s.Inv) {b : Bool} {o : Option Grid} (hb : b = o.isSome) :
    State.Inv { s with S := o, BV := b } := by
  obtain ⟨hkey, hsch, -, herr, hres, hbuf, hksrc⟩ := State.inv_iff.1 h
  exact ⟨hkey.congr rfl rfl rfl, hsch.congr rfl rfl rfl rfl rfl, hb, herr, hres, hbuf, hksrc⟩

/-- A Block State in place of another. -/
theorem State.Inv.replaceBlock {s : State} (h : s.Inv) {g : Grid} (hg : s.S = some g) (g' : Grid) :
    State.Inv { s with S := some g' } := by
  obtain ⟨-, -, hblk, -⟩ := State.inv_iff.1 h
  exact h.setBlock (b := s.BV) (by rw [hblk, hg]; rfl)

/-- Another BUF in canonical form. -/
theorem State.Inv.setBuf {s : State} (h : s.Inv) {m : Space} (hm : m.wf = true) :
    State.Inv { s with BUF := m } := by
  obtain ⟨hkey, hsch, hblk, herr, hres, -, hksrc⟩ := State.inv_iff.1 h
  exact ⟨hkey.congr rfl rfl rfl, hsch.congr rfl rfl rfl rfl rfl, hblk.congr rfl rfl, herr, hres, hm, hksrc⟩

/-- A Key of a legal size, its schedule not yet computed (R23, R39 b). -/
theorem State.Inv.setKey {s : State} (h : s.Inv) {z : KeySize} {key : List Byte} (hl : key.length = z.klen) :
    State.Inv { s with K := keyRegister key, KLEN := some z, KV := true, SV := false, W := scheduleNone } := by
  obtain ⟨-, -, hblk, herr, hres, hbuf, hksrc⟩ := State.inv_iff.1 h
  exact ⟨.inl ⟨z, key, rfl, rfl, hl, rfl⟩, .inr ⟨rfl, rfl⟩, hblk.congr rfl rfl, herr, hres, hbuf, hksrc⟩

/-- With KV = 1 a Key of the size in KLEN is held (R39 b). -/
theorem State.Inv.holdsKey {s : State} (h : s.Inv) (hkv : s.KV = true) {z : KeySize} (hz : s.KLEN = some z) :
    ∃ key, s.HoldsKey z key := by
  obtain ⟨hkey, -⟩ := State.inv_iff.1 h
  obtain ⟨z', key, hk⟩ | ⟨hno, -, -⟩ := hkey
  · have hlen : s.KLEN = some z' := hk.2.1
    obtain rfl : z = z' := Option.some.inj (hz.symm.trans hlen)
    exact ⟨key, hk⟩
  · rw [hkv] at hno; cases hno

/-- `ensure_schedule` puts the schedule of the Key in K into W (R39 a, c). -/
theorem State.Inv.ensureSchedule {s u : State} (h : s.Inv) {z : KeySize} (hkv : s.KV = true)
    (hz : s.KLEN = some z) (hu : ensureSchedule z s = some u) : u.Inv := by
  obtain ⟨-, rfl⟩ | ⟨-, key, hr, rfl⟩ := ensureSchedule_cases hu
  · exact h
  · obtain ⟨key', hk⟩ := h.holdsKey hkv hz
    obtain rfl : key' = key := Option.some.inj ((readKey_of hk).symm.trans hr)
    obtain ⟨hkey, -, hblk, herr, hres, hbuf, hksrc⟩ := State.inv_iff.1 h
    exact ⟨hkey.congr rfl rfl rfl, .inl ⟨rfl, z, key', hk.congr rfl rfl rfl, rfl⟩, hblk.congr rfl rfl, herr,
      hres, hbuf, hksrc⟩

theorem State.Inv.prepared {s u : State} {i : Instr} (h : s.Inv) (hu : Prepared i s u) : u.Inv := by
  cases hu with
  | unchanged => exact h
  | scheduled z u hi hk hz hu => exact h.ensureSchedule hk hz hu

/-- The sizes KEYLD accepts are the lengths of the Keys (R21). -/
theorem KeySize.ofLength_eq_some {n : Nat} {z : KeySize} (h : KeySize.ofLength n = some z) : n = z.klen := by
  unfold KeySize.ofLength at h
  split_ifs at h with h16 h24 h32 <;> cases h
  · exact h16
  · exact h24
  · exact h32

theorem flatOf_length (g : Grid) : (flatOf g).length = 16 := rfl

/-! ### Commands, moves, steps -/

theorem State.Inv.effect {s t : State} {i : Instr} (h : s.Inv) (ht : Effect i s t) : t.Inv := by
  cases ht with
  | raised e he => exact h.raise he
  | answered u d hu => exact (h.prepared hu).respondOk d
  | transformed u g g' _ hu hg => exact ((h.prepared hu).replaceBlock hg g').respondOk _
  | blockTaken g => exact (h.setBlock rfl).respondOk _
  | endOfData => exact (h.setBlock rfl).respondEod
  | blockWritten off g _ ho =>
    obtain ⟨-, -, -, -, -, hbuf, -⟩ := State.inv_iff.1 h
    exact (h.setBuf (memWrite_wf _ _ hbuf (by rwa [flatOf_length]))).respondOk _
  | keyLoaded z _ hz =>
    have hl : (memRead s.KSRC 0 s.KSRC.len).length = z.klen := by
      rw [memRead_length, ← KeySize.ofLength_eq_some hz]; omega
    exact (h.setKey hl).respondOk _

theorem exec_keeps_inv {i : Instr} {s t : State} (h : s.Inv) (ht : exec i s = .next t) : t.Inv :=
  h.effect (exec_effect ht)

theorem HostOnly.keeps_inv {s t : State} (ht : HostOnly s t) (h : s.Inv) : t.Inv := by
  obtain ⟨hkey, hsch, hblk, herr, hres, hbuf, hksrc⟩ := State.inv_iff.1 h
  refine ⟨hkey.congr ht.KV ht.KLEN ht.K, hsch.congr ht.KV ht.KLEN ht.K ht.SV ht.W, hblk.congr ht.BV ht.S,
    ?_, ?_, ht.buf_wf hbuf, ht.ksrc_wf hksrc⟩
  · rwa [ht.ERR]
  · rwa [ht.responses]

/-- Reset gives up the Key, the schedule and the Block State together with their flags (R286). -/
theorem State.Inv.resetCore {s : State} (h : s.Inv) : (resetCore s).Inv := by
  obtain ⟨-, -, -, -, hres, hbuf, hksrc⟩ := State.inv_iff.1 h
  exact ⟨.inr ⟨rfl, rfl, rfl⟩, .inr ⟨rfl, rfl⟩, rfl, List.mem_cons_self, hres, hbuf, hksrc⟩

theorem MoveEffect.keeps_inv {m : Move} {s t : State} (ht : MoveEffect m s t) (h : s.Inv) : t.Inv := by
  cases ht with
  | reset _ ht => exact ht ▸ h.resetCore
  | host ht => exact ht.keeps_inv h
  | command w i _ _ ht => exact exec_keeps_inv h ht
  | illegal ht => exact ht ▸ h.raise (by decide)
  | stream i u _ hu ht => exact ht.keeps_inv (exec_keeps_inv h hu)

/-- Settles O51: taking the move from those pending is no more than a HOST move, and the effect of the move
keeps the invariant. -/
theorem stepKeepsTheInvariant : Obligations.StepKeepsTheInvariant := by
  intro s t h ht
  obtain rfl | ⟨m, rest, -, ht⟩ := step_effect ht
  · exact h
  · exact ht.keeps_inv ((HostOnly.of_host s rest s.hostResults).keeps_inv h)

/-- Settles O50: nothing is held after reset, and the byte spaces are empty. -/
theorem resetMeetsTheInvariant : Obligations.ResetMeetsTheInvariant :=
  ⟨.inr ⟨rfl, rfl, rfl⟩, .inr ⟨rfl, rfl⟩, rfl, List.mem_cons_self,
    fun _ h => (List.not_mem_nil h).elim, reset_spaces_wf.1, reset_spaces_wf.2⟩

end Sys2Proof.Machine
end

section
/-!
What no step changes: ERR once it is not 0, and the Key (spec 10_state.md R20, R23, R39 (e)).
-/

namespace Sys2Proof.Machine

/-- `raise` leaves an ERR that is not 0 (R262). -/
theorem raise_ERR_sticky {e : Err} {s : State} (h : s.ERR ≠ 0x00) : (raise e s).ERR = s.ERR := by
  rw [raise_ERR, if_neg h]

/-- No command changes an ERR that is not 0. -/
theorem exec_ERR_sticky {i : Instr} {s t : State} (ht : exec i s = .next t) (h : s.ERR ≠ 0x00) :
    t.ERR = s.ERR := by
  cases exec_effect ht with
  | raised => exact raise_ERR_sticky h
  | answered u d hu | transformed u g g' _ hu hg =>
    obtain ⟨w, sv, rfl, -⟩ := hu.writes_schedule
    rw [respondOk_ERR]
  | blockTaken | blockWritten | keyLoaded => rw [respondOk_ERR]
  | endOfData => rw [respondEod_ERR]

/-- No move but reset changes an ERR that is not 0. -/
theorem MoveEffect.ERR_sticky {m : Move} {s t : State} (ht : MoveEffect m s t) (hm : m ≠ .reset)
    (h : s.ERR ≠ 0x00) : t.ERR = s.ERR := by
  cases ht with
  | reset hr => exact absurd hr hm
  | host ht => exact ht.ERR
  | command w i _ _ ht => exact exec_ERR_sticky ht h
  | illegal ht => rw [ht]; exact raise_ERR_sticky h
  | stream i u _ hu ht => rw [ht.ERR]; exact exec_ERR_sticky hu h

/-- Settles O53: a step has the effect of its move, and only reset clears ERR. -/
theorem errIsStickyUntilReset : Obligations.ErrIsStickyUntilReset := by
  intro s t ht h hreset
  obtain rfl | ⟨m, rest, hm, ht⟩ := step_effect ht
  · rfl
  · exact ht.ERR_sticky (fun hr => hreset rest (hr ▸ hm)) h

/-- K, KLEN and KV are the same in both states. -/
def SameKey (s t : State) : Prop := t.K = s.K ∧ t.KLEN = s.KLEN ∧ t.KV = s.KV

/-- No command but KEYLD changes the Key (R20). -/
theorem exec_sameKey {i : Instr} {s t : State} (hi : i ≠ .keyld) (ht : exec i s = .next t) : SameKey s t :=
  (commandsWriteOnlyTheirRegisters i s t ht).1 hi

/-- No move changes the Key but a reset and a word that decodes to KEYLD: a stream procedure never issues
KEYLD (R23). -/
theorem MoveEffect.sameKey {m : Move} {s t : State} (ht : MoveEffect m s t) :
    SameKey s t ∨ m = .reset ∨ ∃ w, m = .command w ∧ decode w = .ok .keyld := by
  cases ht with
  | reset hr => exact .inr (.inl hr)
  | host ht => exact .inl ⟨ht.K, ht.KLEN, ht.KV⟩
  | command w i hw hi ht =>
    by_cases hk : i = .keyld
    · exact .inr (.inr ⟨w, hw, hk ▸ hi⟩)
    · exact .inl (exec_sameKey hk ht)
  | illegal ht => rw [ht]; exact .inl ⟨raise_K _ s, raise_KLEN _ s, raise_KV _ s⟩
  | stream i u hi hu ht =>
    obtain ⟨hK, hKLEN, hKV⟩ := exec_sameKey hi hu
    exact .inl ⟨ht.K.trans hK, ht.KLEN.trans hKLEN, ht.KV.trans hKV⟩

/-- Settles O54: a step has the effect of its move. -/
theorem keyChangesOnlyByKeyldOrReset : Obligations.KeyChangesOnlyByKeyldOrReset := by
  intro s t ht
  obtain rfl | ⟨m, rest, hm, ht⟩ := step_effect ht
  · exact .inl ⟨rfl, rfl, rfl⟩
  · obtain hsame | rfl | ⟨w, rfl, hw⟩ := ht.sameKey
    · exact .inl hsame
    · exact .inr (.inl ⟨rest, hm⟩)
    · exact .inr (.inr ⟨w, rest, hm, hw⟩)

end Sys2Proof.Machine
end

section
/-!
No command but RDCSR 0 depends on ERR (spec 10_state.md R28): the conditions and the values of every
meaning are the same in two states that differ in ERR, and `raise` differs in ERR alone.
-/

namespace Sys2Proof.Machine

/-- The meaning has the same outcome, but for ERR, whatever stands in ERR. -/
def IgnoresErr (f : State → Result) : Prop :=
  ∀ (s : State) (c : BitVec 8), withoutErr (f { s with ERR := c }) = withoutErr (f s)

/-! ### How each shared operation ignores ERR -/

theorem ignoresErr_respondOk (d : BitVec 32) : IgnoresErr fun s => .next (respondOk d s) :=
  fun _ _ => rfl

theorem ignoresErr_raise (e : Err) : IgnoresErr fun s => .next (raise e s) :=
  fun _ _ => rfl

/-- A condition that does not read ERR. -/
theorem IgnoresErr.ite {p : State → Prop} [DecidablePred p] {f g : State → Result}
    (hp : ∀ (s : State) (c : BitVec 8), p { s with ERR := c } ↔ p s) (hf : IgnoresErr f)
    (hg : IgnoresErr g) : IgnoresErr fun s => if p s then f s else g s := by
  intro s c
  simp only [hp]
  split
  · exact hf s c
  · exact hg s c

theorem IgnoresErr.withKey {f : KeySize → State → Result} (hf : ∀ z, IgnoresErr (f z)) :
    IgnoresErr fun s => withKey s fun z => f z s := by
  intro s c
  simp only [Machine.withKey]
  split
  · rfl
  · exact hf _ s c

theorem IgnoresErr.withBlock {f : Grid → State → Result} (hf : ∀ g, IgnoresErr (f g)) :
    IgnoresErr fun s => withBlock s fun g => f g s := by
  intro s c
  simp only [Machine.withBlock]
  split
  · rfl
  · exact hf _ s c

/-- `ensure_schedule` neither reads nor writes ERR (R144). -/
theorem ensureSchedule_setErr (z : KeySize) (s : State) (c : BitVec 8) :
    ensureSchedule z { s with ERR := c } = (ensureSchedule z s).map fun u => { u with ERR := c } := by
  unfold ensureSchedule readKey
  by_cases hsv : s.SV = true
  · rw [if_pos hsv, if_pos hsv]; rfl
  · rw [if_neg hsv, if_neg hsv, Option.map_map]; rfl

theorem IgnoresErr.withSchedule {z : KeySize} {f : List Quad → State → Result}
    (hf : ∀ ws, IgnoresErr (f ws)) :
    IgnoresErr fun s => withSchedule z s fun u ws => f ws u := by
  intro s c
  simp only [Machine.withSchedule, ensureSchedule_setErr]
  cases ensureSchedule z s with
  | none => rfl
  | some u =>
    simp only [Option.map_some, readSchedule]
    split
    · rfl
    · exact hf _ u c

theorem transformBlock_ignoresErr (f : Grid → Grid) : IgnoresErr (transformBlock f) :=
  .ite (fun _ _ => Iff.rfl) (ignoresErr_raise _) (.withBlock fun _ _ _ => rfl)

theorem cipherBlock_ignoresErr (big : Nat → Bool) (f : Grid → List Quad → Nat → Grid) :
    IgnoresErr (cipherBlock big f) :=
  .ite (fun _ _ => Iff.rfl) (ignoresErr_raise _) <| .withKey fun z =>
    .ite (p := fun _ => big z.nr = true) (fun _ _ => Iff.rfl) (ignoresErr_raise _) <|
      .withSchedule fun ws => .withBlock (f := fun g u => .next (respondOk 0x00000000
        { u with S := some (f g ws z.nr) })) fun _ _ _ => rfl

/-! ### How each command ignores ERR -/

theorem execRcon_ignoresErr (x : BitVec 8) : IgnoresErr (execRcon x) :=
  .ite (p := fun _ => Config.rconLen ≤ numberOf x) (fun _ _ => Iff.rfl) (ignoresErr_raise _)
    (ignoresErr_respondOk _)

theorem execKeyld_ignoresErr : IgnoresErr execKeyld := by
  intro s c
  unfold execKeyld
  cases KeySize.ofLength (memLen s.KSRC) with
  | none => rfl
  | some z => rfl

theorem execKexp_ignoresErr : IgnoresErr execKexp :=
  .ite (fun _ _ => Iff.rfl) (ignoresErr_raise _) <| .withKey fun z s c => by
    simp only [ensureSchedule_setErr]
    cases ensureSchedule z s with
    | none => rfl
    | some u => rfl

theorem execRdrk_ignoresErr (round row : BitVec 8) : IgnoresErr (execRdrk round row) :=
  .ite (fun _ _ => Iff.rfl) (ignoresErr_raise _) <| .withKey fun z =>
    .ite (p := fun _ => z.nr < numberOf round) (fun _ _ => Iff.rfl) (ignoresErr_raise _) <|
      .withSchedule fun _ => ignoresErr_respondOk _

theorem execLoad_ignoresErr (off : BitVec 32) : IgnoresErr (execLoad off) :=
  .ite (fun _ _ => Iff.rfl) (fun _ _ => rfl) (fun _ _ => rfl)

theorem execDump_ignoresErr (off : BitVec 32) : IgnoresErr (execDump off) :=
  .ite (fun _ _ => Iff.rfl) (ignoresErr_raise _) <|
    .ite (fun _ _ => Iff.rfl) (ignoresErr_raise _) (.withBlock fun _ _ _ => rfl)

theorem execCons_ignoresErr (off : BitVec 32) (len : BitVec 8) : IgnoresErr (execCons off len) :=
  .ite (fun _ _ => Iff.rfl) (ignoresErr_raise _) (fun _ _ => rfl)

theorem execRdrow_ignoresErr (row : BitVec 8) : IgnoresErr (execRdrow row) :=
  .ite (fun _ _ => Iff.rfl) (ignoresErr_raise _) (.withBlock fun _ => ignoresErr_respondOk _)

/-- RDCSR 1 reads KINFO, which holds nothing of ERR (R33, R215). -/
theorem execRdcsr_ignoresErr {n : BitVec 8} (hn : n.getLsbD 0 = true) : IgnoresErr (execRdcsr n) := by
  have hcsr : ¬ csrOf n = false := by simp [csrOf, hn]
  have hkinfo : execRdcsr n = fun s => if keyMissing s then .next (respondOk 0x00000000 s)
      else withKey s fun z => .next (respondOk (kinfoWord z) s) := by
    funext s
    rw [execRdcsr, if_neg hcsr]
  rw [hkinfo]
  exact .ite (fun _ _ => Iff.rfl) (ignoresErr_respondOk _) (.withKey fun _ => ignoresErr_respondOk _)

/-- Settles O47, command by command. -/
theorem noResultDependsOnErr : Obligations.NoResultDependsOnErr := by
  intro i s c hi
  cases i with
  | gfadd | gfdbl | gfmul | gfmix | gfimix | sbox | isbox => exact ignoresErr_respondOk _ s c
  | rcon x => exact execRcon_ignoresErr x s c
  | keyld => exact execKeyld_ignoresErr s c
  | kexp => exact execKexp_ignoresErr s c
  | rdrk round row => exact execRdrk_ignoresErr round row s c
  | load off => exact execLoad_ignoresErr off s c
  | dump off => exact execDump_ignoresErr off s c
  | cons off len => exact execCons_ignoresErr off len s c
  | rdrow row => exact execRdrow_ignoresErr row s c
  | subbytes | isubbytes | shiftrows | ishiftrows | mixcols | imixcols =>
    exact transformBlock_ignoresErr _ s c
  | addrk round => rw [exec_addrk, exec_addrk]; exact cipherBlock_ignoresErr _ _ s c
  | encrypt => rw [exec_encrypt, exec_encrypt]; exact cipherBlock_ignoresErr _ _ s c
  | decrypt => rw [exec_decrypt, exec_decrypt]; exact cipherBlock_ignoresErr _ _ s c
  | rdcsr n => exact execRdcsr_ignoresErr (hi n rfl) s c

end Sys2Proof.Machine
end

section
/-!
The reset state and the two views RDCSR reads (spec 10_state.md R32, R33, R36).
-/

namespace Sys2Proof.Machine

/-! ### STATUS (R32) -/

/-- STATUS bit by bit: the three flags, then ERR from bit 8 on. -/
theorem statusWord_getLsbD (s : State) (k : Nat) : (statusWord s).getLsbD k =
    if k = 0 then s.KV else if k = 1 then s.SV else if k = 2 then s.BV
    else decide (8 ≤ k) && s.ERR.getLsbD (k - 8) := by
  simp only [statusWord, flagBit, BitVec.getLsbD_append, BitVec.getLsbD_ofBool, BitVec.getLsbD_zero]
  match k with
  | 0 => simp
  | 1 => simp
  | 2 => simp
  | k + 3 =>
    by_cases hk : k < 5
    · simp [hk]
    · simpa [hk, show 5 ≤ k by omega] using BitVec.lt_of_getLsbD

/-- Above the flags STATUS holds ERR alone. -/
theorem statusWord_getLsbD_of_le (s : State) {k : Nat} (hk : 3 ≤ k) :
    (statusWord s).getLsbD k = (decide (8 ≤ k) && s.ERR.getLsbD (k - 8)) := by
  rw [statusWord_getLsbD, if_neg (by omega), if_neg (by omega), if_neg (by omega)]

theorem statusWord_bits_7_3 (s : State) : (statusWord s).extractLsb' 3 5 = 0 := by
  apply BitVec.eq_of_getLsbD_eq
  intro k hk
  rw [BitVec.getLsbD_extractLsb', statusWord_getLsbD_of_le s (by omega)]
  simp [show ¬ 8 ≤ 3 + k by omega]

theorem statusWord_bits_15_8 (s : State) : (statusWord s).extractLsb' 8 8 = s.ERR := by
  apply BitVec.eq_of_getLsbD_eq
  intro k hk
  rw [BitVec.getLsbD_extractLsb', statusWord_getLsbD_of_le s (by omega)]
  simp [hk]

theorem statusWord_bits_31_16 (s : State) : (statusWord s).extractLsb' 16 16 = 0 := by
  apply BitVec.eq_of_getLsbD_eq
  intro k hk
  rw [BitVec.getLsbD_extractLsb', statusWord_getLsbD_of_le s (by omega),
    BitVec.getLsbD_of_ge _ _ (by omega)]
  simp

/-- Settles O41: RDCSR 0 answers STATUS, read here bit by bit. -/
theorem rdcsrZeroAnswersStatus : Obligations.RdcsrZeroAnswersStatus := fun s =>
  ⟨statusWord s, rfl, statusWord_getLsbD s 0, statusWord_getLsbD s 1, statusWord_getLsbD s 2,
    statusWord_bits_7_3 s, statusWord_bits_15_8 s, statusWord_bits_31_16 s⟩

/-! ### KINFO (R33) -/

/-- RDCSR 1 without a Key answers 0 (R33). -/
theorem exec_rdcsr_one_of_no_key {s : State} (h : s.KV = false) :
    exec (.rdcsr 1) s = .next (s.afterOk 0x00000000) := by
  rw [exec_rdcsr, execRdcsr, if_neg (by decide), if_pos (by simp [keyMissing, h]), respondOk_eq_afterOk]

/-- RDCSR 1 with a Key answers KINFO of its size (R33). -/
theorem exec_rdcsr_one_of_key {s : State} {z : KeySize} (h : s.KV = true) (hz : s.KLEN = some z) :
    exec (.rdcsr 1) s = .next (s.afterOk (kinfoWord z)) := by
  rw [exec_rdcsr, execRdcsr, if_neg (by decide), if_neg (by simp [keyMissing, h]), withKey, hz]
  rfl

theorem kinfoWord_values : kinfoWord .bytes16 = 0x00800A04 ∧ kinfoWord .bytes24 = 0x00C00C06 ∧
    kinfoWord .bytes32 = 0x01000E08 := by decide

/-- Settles O42: KINFO without a Key and for each of the three key sizes. -/
theorem rdcsrOneAnswersKinfo : Obligations.RdcsrOneAnswersKinfo := by
  intro s
  obtain ⟨h16, h24, h32⟩ := kinfoWord_values
  exact ⟨exec_rdcsr_one_of_no_key, h16 ▸ exec_rdcsr_one_of_key, h24 ▸ exec_rdcsr_one_of_key,
    h32 ▸ exec_rdcsr_one_of_key⟩

/-! ### The reset state (R36) -/

/-- Settles O1: the registers of `State.reset`, and RDCSR on it. -/
theorem resetStateHoldsNovalue : Obligations.ResetStateHoldsNovalue := by
  refine ⟨rfl, rfl, rfl, rfl, fun i => ?_, rfl, fun c => ?_, rfl, rfl, exec_rdcsr_one_of_no_key rfl⟩
  · exact Vector.getElem_replicate i.isLt
  · exact Vector.getElem_replicate c.isLt

end Sys2Proof.Machine
end

section
/-!
What the HOST reads from the byte spaces and makes of them (spec 20_memory.md R51, R52,
49_host_padding_and_streaming.md R220): each of its moves, made where R220 offers it, next to the law of
Laws/Memory.lean that gives every byte.
-/

namespace Sys2Proof.Machine

/-! ### The reads (R52) -/

/-- Settles O55: how many bytes a read finds, and which. -/
theorem memReadStopsAtTheEnd : Obligations.MemReadStopsAtTheEnd := by
  refine fun m addr n => ⟨memRead_length m addr n, fun k hk => ?_⟩
  have hkn : k < n := Nat.lt_of_lt_of_le hk (Nat.min_le_left _ _)
  rw [memRead_getElem?, if_pos hkn]

/-! ### The moves on BUF and KSRC, where R220 offers them -/

theorem makeMove_writeBuf {off : Nat} {bytes : List Byte} {s : State} (h : off + bytes.length ≤ s.BUF.len) :
    makeMove (.writeBuf off bytes) s = .next { s with BUF := memWrite s.BUF off bytes } :=
  if_neg (Nat.not_lt.2 h)

theorem makeMove_appendBuf {bytes : List Byte} {s : State} (h : s.BUF.len + bytes.length ≤ Config.maxLen) :
    makeMove (.appendBuf bytes) s = .next { s with BUF := memAppend s.BUF bytes } :=
  if_neg (Nat.not_lt.2 h)

theorem makeMove_truncateBuf {n : Nat} {s : State} (h : n ≤ s.BUF.len) :
    makeMove (.truncateBuf n) s = .next { s with BUF := memTruncate s.BUF n } :=
  if_neg (Nat.not_lt.2 h)

theorem makeMove_setKsrc {bytes : List Byte} {s : State} (h : bytes.length ≤ Config.maxLen) :
    makeMove (.setKsrc bytes) s = .next { s with KSRC := Space.ofBytes bytes } :=
  if_neg (Nat.not_lt.2 h)

theorem makeMove_readBuf (off n : Nat) (s : State) :
    makeMove (.readBuf off n) s =
      .next { s with hostResults := s.hostResults ++ [.bytes (memRead s.BUF off n)] } :=
  rfl

theorem makeMove_lengthBuf (s : State) :
    makeMove .lengthBuf s = .next { s with hostResults := s.hostResults ++ [.length s.BUF.len] } :=
  rfl

/-- Settles O6, move by move: the next step makes the move, and a law of the byte spaces says what every
byte is after it. -/
theorem hostMovesHaveTheirEffect : Obligations.HostMovesHaveTheirEffect := by
  intro s rest hwf
  obtain ⟨hrising, -, -⟩ := Space.wf_iff.1 hwf
  refine ⟨fun off bytes hm hin => ?write, fun bytes hm hmax => ?append, fun n hm hle => ?truncate,
    fun bytes hm hmax => ?ksrc, fun off n hm => ?read, fun hm => ?length⟩
  case write =>
    exact ⟨_, (step_cons hm).trans (makeMove_writeBuf hin), memWrite_len _ _ _,
      memWrite_get off bytes hrising hin⟩
  case append =>
    exact ⟨_, (step_cons hm).trans (makeMove_appendBuf hmax), memAppend_len _ _,
      memAppend_get bytes hrising⟩
  case truncate =>
    exact ⟨_, (step_cons hm).trans (makeMove_truncateBuf hle), memTruncate_len _ _,
      memTruncate_get n hle⟩
  case ksrc =>
    exact ⟨_, (step_cons hm).trans (makeMove_setKsrc hmax), Space.ofBytes_len _, Space.ofBytes_get bytes⟩
  case read =>
    exact ⟨_, (step_cons hm).trans (makeMove_readBuf off n _), memRead_getElem? s.BUF off n⟩
  case length =>
    exact (step_cons hm).trans (makeMove_lengthBuf _)

end Sys2Proof.Machine
end

section
/-!
The opcode map row by row, and the decoder as a search in it (spec 30_encoding.md R77, R80, R81).
-/

namespace Sys2Proof

/-- The fields besides OPC and INV are as the row asks: RSV, the bits of A and B the command does not use,
and an IMM it does not use are 0 (R81). -/
structure OpcodeRow.Admits (r : OpcodeRow) (f : Fields) : Prop where
  rsv : f.rsv = 0#7
  a : f.a.toNat < 2 ^ r.aBits
  b : f.b.toNat < 2 ^ r.bBits
  imm : r.usesImm = false → f.imm = 0#32

/-! ### What stands in a row -/

/-- An OPC with an inverse form has a direct form too. -/
theorem opcodeRow_direct {opc : BitVec 8} {inv : BitVec 1} {r : OpcodeRow}
    (h : opcodeRow opc inv = some r) : opcodeRow opc 0 ≠ none := by
  unfold opcodeRow at h
  split at h
  case h_26 => cases h
  all_goals simp [opcodeRow]

/-- A row builds one command, whatever its operands. -/
theorem build_mnemonic {opc : BitVec 8} {inv : BitVec 1} {r : OpcodeRow} (h : opcodeRow opc inv = some r)
    (a b : BitVec 8) (imm : BitVec 32) : (r.build a b imm).mnemonic = (r.build 0 0 0).mnemonic := by
  unfold opcodeRow at h
  split at h <;> cases h <;> rfl

/-- The operands a row admits fit the command it builds (R77). -/
theorem build_wf {opc : BitVec 8} {inv : BitVec 1} {r : OpcodeRow} (h : opcodeRow opc inv = some r)
    {f : Fields} (hf : r.Admits f) : (r.build f.a f.b f.imm).wf = true := by
  obtain ⟨-, ha, hb, -⟩ := hf
  unfold opcodeRow at h
  split at h <;> cases h
  all_goals simp_all [Instr.wf]

/-- Fields a row admits are the fields of the command it builds: one the command does not use is 0, having
no bit in use (R82). -/
theorem build_fields {f : Fields} {r : OpcodeRow} (h : opcodeRow f.opc f.inv = some r) (hf : r.Admits f) :
    (r.build f.a f.b f.imm).fields = f := by
  obtain ⟨opc, rsv, inv, a, b, imm⟩ := f
  obtain ⟨hrsv, ha, hb, himm⟩ := hf
  unfold opcodeRow at h
  split at h <;> cases h
  all_goals simp_all [Instr.fields, ← BitVec.toNat_inj]

/-- A row stands at the fields of a well-formed command, admits them and builds the command from them. -/
theorem Instr.exists_row (i : Instr) (h : i.wf = true) :
    ∃ r, opcodeRow i.fields.opc i.fields.inv = some r ∧ r.Admits i.fields ∧
      r.build i.fields.a i.fields.b i.fields.imm = i := by
  cases i with
  | gfadd a b | gfmul a b => exact ⟨_, rfl, ⟨rfl, a.isLt, b.isLt, fun _ => rfl⟩, rfl⟩
  | gfdbl a | sbox a | isbox a => exact ⟨_, rfl, ⟨rfl, a.isLt, Nat.one_pos, fun _ => rfl⟩, rfl⟩
  | gfmix | gfimix | load | dump => exact ⟨_, rfl, ⟨rfl, Nat.one_pos, Nat.one_pos, nofun⟩, rfl⟩
  | cons off len => exact ⟨_, rfl, ⟨rfl, len.isLt, Nat.one_pos, nofun⟩, rfl⟩
  | rcon | rdrow | addrk | rdcsr =>
    exact ⟨_, rfl, ⟨rfl, of_decide_eq_true h, Nat.one_pos, fun _ => rfl⟩, rfl⟩
  | rdrk =>
    obtain ⟨hround, hrow⟩ := Bool.and_eq_true_iff.1 h
    exact ⟨_, rfl, ⟨rfl, of_decide_eq_true hround, of_decide_eq_true hrow, fun _ => rfl⟩, rfl⟩
  | keyld | kexp | subbytes | isubbytes | shiftrows | ishiftrows | mixcols | imixcols | encrypt | decrypt =>
    exact ⟨_, rfl, ⟨rfl, Nat.one_pos, Nat.one_pos, fun _ => rfl⟩, rfl⟩

/-! ### Decoding and encoding -/

/-- The decoder gives a command exactly when a row stands at OPC and INV and admits the other fields. -/
theorem decodeFields_eq_ok_iff {f : Fields} {i : Instr} : decodeFields f = .ok i ↔
    ∃ r, opcodeRow f.opc f.inv = some r ∧ r.Admits f ∧ r.build f.a f.b f.imm = i := by
  unfold decodeFields
  split
  case h_1 hn => simpa using fun r hr => absurd hn (opcodeRow_direct hr)
  case h_2 hr => simp [hr]
  case h_3 r _ hr =>
    rw [hr]
    constructor
    · intro h
      split_ifs at h with hrsv ha hb himm
      exact ⟨r, rfl, ⟨not_not.1 hrsv, not_le.1 ha, not_le.1 hb, by simpa using himm⟩, Except.ok.inj h⟩
    · rintro ⟨_, ⟨⟩, ⟨hrsv, ha, hb, himm⟩, rfl⟩
      rw [if_neg (not_ne_iff.2 hrsv), if_neg (not_le.2 ha), if_neg (not_le.2 hb),
        if_neg fun h => h.2 (himm h.1)]

/-- Settles O8: the row of the command stands at its fields and builds it again. -/
theorem decodeEncodeIsIdentity : Obligations.DecodeEncodeIsIdentity := fun i h =>
  (Machine.decode_encode_fields i).trans (decodeFields_eq_ok_iff.2 (i.exists_row h))

/-- Settles O9: a row builds a well-formed command, whose fields are those it was built from. -/
theorem encodeDecodeIsIdentity : Obligations.EncodeDecodeIsIdentity := by
  intro w i hw
  obtain ⟨r, hr, hadmits, rfl⟩ := decodeFields_eq_ok_iff.1 hw
  exact ⟨build_wf hr hadmits, by rw [encode, build_fields hr hadmits, wordOf_fieldsOf]⟩

end Sys2Proof
end

section
/-!
The opcode table is the opcode map, each row written as a match and a mask (spec 30_encoding.md R80).
-/

namespace Sys2Proof

/-! ### The rows as matches and masks -/

/-- OPC and INV of every command, in the order of `opcode_table.json` (R80). -/
def opcodeCodes : List (BitVec 8 × BitVec 1) :=
  [(0x10, 0), (0x11, 0), (0x12, 0), (0x13, 0), (0x13, 1), (0x20, 0), (0x20, 1), (0x21, 0), (0x30, 0),
   (0x31, 0), (0x32, 0), (0x40, 0), (0x41, 0), (0x42, 0), (0x43, 0), (0x50, 0), (0x50, 1), (0x51, 0),
   (0x51, 1), (0x52, 0), (0x52, 1), (0x53, 0), (0x60, 0), (0x61, 0), (0x70, 0)]

/-- The opcode map has a row only for the codes of the table. -/
theorem mem_opcodeCodes {opc : BitVec 8} {inv : BitVec 1} {r : OpcodeRow}
    (h : opcodeRow opc inv = some r) : (opc, inv) ∈ opcodeCodes := by
  unfold opcodeRow at h
  split at h
  case h_26 => cases h
  all_goals simp [opcodeCodes]

/-- The mask of a field whose `n` low bits are free. -/
def maskAbove (w n : Nat) : BitVec w := BitVec.allOnes w <<< n

/-- A row of the opcode map as `opcode_table.json` writes it. -/
def OpcodeRow.tableRow (r : OpcodeRow) (opc : BitVec 8) (inv : BitVec 1) : TableRow where
  mnemonic := (r.build 0 0 0).mnemonic
  pattern := wordOf ⟨opc, 0, inv, 0, 0, 0⟩
  mask := wordOf ⟨.allOnes 8, .allOnes 7, .allOnes 1, maskAbove 8 r.aBits, maskAbove 8 r.bBits,
    if r.usesImm then 0 else .allOnes 32⟩

/-- The row of `opcode_table.json` for an OPC and INV, none where no mnemonic stands. -/
def tableRowAt (c : BitVec 8 × BitVec 1) : Option TableRow :=
  (opcodeRow c.1 c.2).map (·.tableRow c.1 c.2)

/-- The opcode table says what the opcode map says. -/
theorem opcodeTable_eq : opcodeTable = opcodeCodes.filterMap tableRowAt := by decide

/-! ### Which words a row hits -/

theorem maskAbove_getLsbD (w n k : Nat) :
    (maskAbove w n).getLsbD k = (decide (n ≤ k) && decide (k < w)) := by
  rw [maskAbove, BitVec.getLsbD_shiftLeft, BitVec.getLsbD_allOnes, Bool.eq_iff_iff]
  simp only [Bool.and_eq_true, Bool.not_eq_true', decide_eq_true_eq, decide_eq_false_iff_not]
  omega

/-- The bits of a field above the `n` free ones are 0 exactly when the field is below `2 ^ n`. -/
theorem and_maskAbove_eq_zero {w n : Nat} {x : BitVec w} : x &&& maskAbove w n = 0 ↔ x.toNat < 2 ^ n := by
  constructor
  · intro h
    refine Nat.lt_pow_two_of_testBit _ fun k hn => ?_
    by_cases hw : k < w
    · have hbit := congrArg (BitVec.getLsbD · k) h
      simp only [BitVec.getLsbD_and, maskAbove_getLsbD, hn, hw, decide_true, Bool.and_true] at hbit
      exact hbit.trans BitVec.getLsbD_zero
    · exact BitVec.getLsbD_of_ge x k (not_lt.1 hw)
  · intro h
    refine BitVec.eq_of_getLsbD_eq fun k _ => ?_
    by_cases hn : n ≤ k
    · have hx : x.getLsbD k = false :=
        Nat.testBit_lt_two_pow (h.trans_le (Nat.pow_le_pow_right Nat.two_pos hn))
      simp [BitVec.getLsbD_and, hx]
    · simp [maskAbove_getLsbD, hn]

/-- A word is hit by the table's row exactly when OPC and INV are the row's and the row admits the rest. -/
theorem tableRow_hits_iff {r : OpcodeRow} {opc : BitVec 8} {inv : BitVec 1} {f : Fields} :
    (r.tableRow opc inv).hits (wordOf f) = true ↔ (opc, inv) = (f.opc, f.inv) ∧ r.Admits f := by
  have himm : f.imm &&& (if r.usesImm then 0 else .allOnes 32) = 0 ↔
      (r.usesImm = false → f.imm = 0#32) := by
    cases r.usesImm
    · rw [if_neg Bool.false_ne_true, BitVec.and_allOnes]
      exact (imp_iff_right rfl).symm
    · simp
  simp only [hits_iff, OpcodeRow.tableRow, fieldsOf_wordOf, BitVec.and_allOnes, and_maskAbove_eq_zero, himm,
    Prod.mk.injEq, eq_comm (a := opc), eq_comm (a := inv)]
  exact ⟨fun ⟨ho, hrsv, hi, ha, hb, hm⟩ => ⟨⟨ho, hi⟩, hrsv, ha, hb, hm⟩,
    fun ⟨⟨ho, hi⟩, hrsv, ha, hb, hm⟩ => ⟨ho, hrsv, hi, ha, hb, hm⟩⟩

/-! ### The rows that hit a word -/

/-- A row of the table hits a word exactly when it is the row at the word's OPC and INV and admits the
word's other fields. -/
theorem mem_hits_iff {f : Fields} {row : TableRow} : row ∈ opcodeTable.filter (·.hits (wordOf f)) ↔
    ∃ r, opcodeRow f.opc f.inv = some r ∧ r.Admits f ∧ r.tableRow f.opc f.inv = row := by
  rw [List.mem_filter, opcodeTable_eq, List.mem_filterMap]
  constructor
  · rintro ⟨⟨⟨opc, inv⟩, -, hrow⟩, hhits⟩
    obtain ⟨r, hr, rfl⟩ := Option.map_eq_some_iff.1 hrow
    obtain ⟨⟨⟩, hadmits⟩ := tableRow_hits_iff.1 hhits
    exact ⟨r, hr, hadmits, rfl⟩
  · rintro ⟨r, hr, hadmits, rfl⟩
    exact ⟨⟨(f.opc, f.inv), mem_opcodeCodes hr, congrArg (Option.map _) hr⟩,
      tableRow_hits_iff.2 ⟨rfl, hadmits⟩⟩

/-- A word whose fields a row of the opcode map admits is hit by the table's row for it alone. -/
theorem hits_of_admits {f : Fields} {r : OpcodeRow} (hr : opcodeRow f.opc f.inv = some r)
    (hf : r.Admits f) : opcodeTable.filter (·.hits (wordOf f)) = [r.tableRow f.opc f.inv] := by
  have hnodup : opcodeTable.Nodup := by decide
  rw [← List.perm_singleton, List.perm_ext_iff_of_nodup (hnodup.filter _) (List.nodup_singleton _)]
  intro row
  rw [mem_hits_iff, List.mem_singleton]
  constructor
  · rintro ⟨r', hr', -, rfl⟩
    rw [Option.some.inj (hr.symm.trans hr')]
  · rintro rfl
    exact ⟨r, hr, hf, rfl⟩

/-- Settles O7: the table is the opcode map, in which the decoder searches. -/
theorem decodeFollowsTheOpcodeTable : Obligations.DecodeFollowsTheOpcodeTable := by
  intro w
  rw [← wordOf_fieldsOf w, decode, fieldsOf_wordOf]
  generalize fieldsOf w = f
  cases h : decodeFields f with
  | ok i =>
    obtain ⟨r, hr, hadmits, rfl⟩ := decodeFields_eq_ok_iff.1 h
    have hmnemonic : (r.tableRow f.opc f.inv).mnemonic = (r.build f.a f.b f.imm).mnemonic :=
      (build_mnemonic hr f.a f.b f.imm).symm
    simp only [hits_of_admits hr hadmits, List.map_singleton, hmnemonic]
  | error e =>
    refine List.eq_nil_iff_forall_not_mem.2 fun row hrow => ?_
    obtain ⟨r, hr, hadmits, -⟩ := mem_hits_iff.1 hrow
    exact nomatch h.symm.trans (decodeFields_eq_ok_iff.2 ⟨r, hr, hadmits, rfl⟩)

end Sys2Proof
end

section
/-!
A command word handed to the CORE: the step it makes, and the response (spec 30_encoding.md R78, R86).
-/

namespace Sys2Proof.Machine

/-- A word that decodes is executed, and nothing is added (R86). -/
theorem issue_of_decode {w : BitVec 64} {i : Instr} (h : decode w = .ok i) (s : State) :
    issue w s = exec i s := by
  rw [issue, h]

/-- Settles O4: the move is taken, then the word is issued. -/
theorem stepRunsTheDecodedCommand : Obligations.StepRunsTheDecodedCommand :=
  fun _ _ _ _ hm hw => (step_cons hm).trans (issue_of_decode hw _)

/-- A completed command may answer any DATA. -/
theorem Response.Ok.of_stOk (d : BitVec 32) : Response.Ok ⟨stOk, d⟩ :=
  ⟨List.mem_cons_self, fun h => absurd rfl h⟩

/-- Any other status of the table comes with DATA 0. -/
theorem Response.Ok.of_data_zero {st : BitVec 8} (h : st ∈ responseCodes) : Response.Ok ⟨st, 0⟩ :=
  ⟨h, fun _ => rfl⟩

/-- Every effect gives one response, and it is a response of the table (R78). -/
theorem Effect.response_ok {i : Instr} {s t : State} (h : Effect i s t) :
    ∃ r : Response, t.responses = s.responses ++ [r] ∧ r.Ok := by
  cases h with
  | raised e he => exact ⟨_, raise_responses e s, .of_data_zero (mem_responseCodes_of_recordable he)⟩
  | answered u d hu | transformed u g g' _ hu =>
    obtain ⟨w, sv, rfl, -⟩ := hu.writes_schedule
    exact ⟨_, respondOk_responses _ _, .of_stOk _⟩
  | blockTaken | blockWritten | keyLoaded => exact ⟨_, respondOk_responses _ _, .of_stOk _⟩
  | endOfData => exact ⟨_, respondEod_responses _, .of_data_zero (by decide)⟩

/-- Settles O45, effect by effect. -/
theorem oneResponsePerCommand : Obligations.OneResponsePerCommand :=
  fun _ _ _ h => (exec_effect h).response_ok

end Sys2Proof.Machine
end

section
/-!
Maps of bytes that are linear over XOR, and the bytes with one bit set as a basis (spec
40_gf_arithmetic.md R101): what the field laws are read off from.
-/

namespace Sys2Proof.Machine

/-- The XOR of `f 0`, …, `f (n - 1)`. -/
def xorBelow (f : Nat → Byte) : Nat → Byte
  | 0 => 0#8
  | n + 1 => xorBelow f n ^^^ f n

/-- XOR of sums, term by term. -/
theorem xorBelow_xor (f g : Nat → Byte) (n : Nat) :
    xorBelow (fun k => f k ^^^ g k) n = xorBelow f n ^^^ xorBelow g n := by
  induction n with
  | zero => exact (BitVec.xor_zero).symm
  | succ n ih => simp only [xorBelow, ih]; ac_rfl

/-- Sums with equal terms are equal. -/
theorem xorBelow_congr {f g : Nat → Byte} {n : Nat} (h : ∀ k < n, f k = g k) :
    xorBelow f n = xorBelow g n := by
  induction n with
  | zero => rfl
  | succ n ih => rw [xorBelow, xorBelow, ih fun k hk => h k (by omega), h n n.lt_succ_self]

/-- A sum with one term. -/
theorem xorBelow_single (x : Byte) (j n : Nat) :
    xorBelow (fun k => if j = k then x else 0#8) n = if j < n then x else 0#8 := by
  induction n with
  | zero => rfl
  | succ n ih =>
    rw [xorBelow, ih]
    obtain h | rfl | h := lt_trichotomy j n
    · simp [h, h.ne, h.trans n.lt_succ_self]
    · simp
    · simp [show ¬ j < n by omega, show j ≠ n by omega, show ¬ j < n + 1 by omega]

/-- The sum as the fold over the list of the indices. -/
theorem foldr_range_xor (f : Nat → Byte) (n : Nat) (z : Byte) :
    (List.range n).foldr (fun k r => f k ^^^ r) z = xorBelow f n ^^^ z := by
  induction n generalizing z with
  | zero => simp [xorBelow]
  | succ n ih => simp [List.range_succ, ih, xorBelow, BitVec.xor_assoc]

/-- Additive over XOR. -/
def XorLinear (f : Byte → Byte) : Prop := ∀ a b, f (a ^^^ b) = f a ^^^ f b

namespace XorLinear

variable {f g : Byte → Byte}

theorem id : XorLinear id := fun _ _ => rfl

theorem comp (hf : XorLinear f) (hg : XorLinear g) : XorLinear (f ∘ g) :=
  fun a b => (congrArg f (hg a b)).trans (hf _ _)

theorem iterate (hf : XorLinear f) (n : Nat) : XorLinear f^[n] := by
  induction n with
  | zero => exact .id
  | succ n ih => exact ih.comp hf

theorem map_zero (hf : XorLinear f) : f 0#8 = 0#8 := by
  simpa using hf 0#8 0#8

theorem map_xorBelow (hf : XorLinear f) (t : Nat → Byte) (n : Nat) :
    f (xorBelow t n) = xorBelow (fun k => f (t k)) n := by
  induction n with
  | zero => exact hf.map_zero
  | succ n ih => rw [xorBelow, hf, ih, xorBelow]

end XorLinear

/-- The byte with bit `k` of `a`, and no other. -/
def onlyBit (a : Byte) (k : Nat) : Byte := if a.getLsbD k then BitVec.twoPow 8 k else 0#8

/-- Its bits. -/
theorem getLsbD_onlyBit (a : Byte) (k i : Nat) :
    (onlyBit a k).getLsbD i = (decide (k = i) && a.getLsbD i) := by
  unfold onlyBit
  split <;> rename_i ha
  · have hk : k < 8 := BitVec.lt_of_getLsbD ha
    by_cases h : k = i
    · subst h; simp [hk, ha]
    · simp [hk, h]
  · by_cases h : k = i
    · subst h; simp [ha]
    · simp [h]

/-- The low `n` bits of a byte. -/
theorem getLsbD_xorBelow_onlyBit (a : Byte) (n i : Nat) :
    (xorBelow (onlyBit a) n).getLsbD i = (decide (i < n) && a.getLsbD i) := by
  induction n with
  | zero => simp [xorBelow]
  | succ n ih =>
    rw [xorBelow, BitVec.getLsbD_xor, ih, getLsbD_onlyBit]
    obtain h | rfl | h := lt_trichotomy i n
    · simp [h, h.ne', h.trans n.lt_succ_self]
    · simp
    · simp [h.ne, show ¬ i < n by omega, show ¬ i < n + 1 by omega]

/-- Every byte is the XOR of its bits. -/
theorem xorBelow_onlyBit (a : Byte) : xorBelow (onlyBit a) 8 = a :=
  BitVec.eq_of_getLsbD_eq fun i hi => by
    rw [getLsbD_xorBelow_onlyBit, decide_eq_true hi, Bool.true_and]

/-- The bytes with one bit set are a basis: linear maps that agree on them are equal. -/
theorem XorLinear.ext {f g : Byte → Byte} (hf : XorLinear f) (hg : XorLinear g)
    (h : ∀ k < 8, f (BitVec.twoPow 8 k) = g (BitVec.twoPow 8 k)) (a : Byte) : f a = g a := by
  rw [← xorBelow_onlyBit a, hf.map_xorBelow, hg.map_xorBelow]
  refine xorBelow_congr fun k hk => ?_
  unfold onlyBit
  split
  · exact h k hk
  · rw [hf.map_zero, hg.map_zero]

end Sys2Proof.Machine
end

section
/-!
The laws of doubling and of the product (spec 40_gf_arithmetic.md R102 to R104, R112).
-/

namespace Sys2Proof.Machine

/-! ### Doubling -/

/-- The shift is linear, and so is the choice of the reduction byte by bit 7 (R112). -/
theorem gfDouble_xorLinear : XorLinear gfDouble := by
  intro a b
  have reduction : (if (a ^^^ b).getLsbD 7 then Config.reductionByte else 0x00) =
      (if a.getLsbD 7 then Config.reductionByte else 0x00) ^^^
        (if b.getLsbD 7 then Config.reductionByte else 0x00) := by
    rw [BitVec.getLsbD_xor]
    cases a.getLsbD 7 <;> cases b.getLsbD 7 <;> rfl
  simp only [gfDouble, reduction, BitVec.shiftLeft_xor_distrib]
  ac_rfl

/-- Settles O15. -/
theorem doublingIsLinear : Obligations.DoublingIsLinear :=
  fun a b => (gfDouble_xorLinear a b).symm

/-- Doubling as R102 writes it, on numbers. -/
theorem gfDouble_toNat (a : Byte) :
    (gfDouble a).toNat =
      ((a.toNat <<< 1) ^^^ (if a.toNat.testBit 7 then 0x1B else 0x00)) &&& 0xFF := by
  have mask (n : Nat) : n &&& 0xFF = n % 2 ^ 8 := Nat.and_two_pow_sub_one_eq_mod n 8
  have reduction : (if a.getLsbD 7 then Config.reductionByte else 0x00).toNat =
      (if a.toNat.testBit 7 then 0x1B else 0x00) % 2 ^ 8 := by
    rw [← BitVec.testBit_toNat]
    split <;> rfl
  rw [gfDouble, BitVec.toNat_xor, BitVec.toNat_shiftLeft, reduction, mask, Nat.xor_mod_two_pow]

/-- The doubles of 1 are the bytes with one bit set, while no reduction is due (R102). -/
theorem iterate_gfDouble_one : ∀ k < 8, gfDouble^[k] 0x01 = BitVec.twoPow 8 k := by decide

/-! ### The product -/

/-- The term of the product for bit `k` of `b` (R104). -/
def partialProduct (a b : Byte) (k : Nat) : Byte := if b.getLsbD k then gfDouble^[k] a else 0#8

/-- The loop of R104 after `n` rounds: the sum of the terms so far, and `a` doubled `n` times. -/
theorem foldl_gfMul (a b : Byte) (n : Nat) :
    (List.range n).foldl
        (fun (rp : Byte × Byte) k => (if b.getLsbD k then rp.1 ^^^ rp.2 else rp.1, gfDouble rp.2))
        (0x00, a) =
      (xorBelow (partialProduct a b) n, gfDouble^[n] a) := by
  induction n with
  | zero => rfl
  | succ n ih =>
    rw [List.range_succ, List.foldl_append, ih]
    simp only [List.foldl_cons, List.foldl_nil, xorBelow, partialProduct, Function.iterate_succ_apply']
    split <;> simp

/-- The product is the sum of its terms. -/
theorem gfMul_eq_xorBelow (a b : Byte) : gfMul a b = xorBelow (partialProduct a b) 8 := by
  rw [gfMul, foldl_gfMul]

/-- The product as a fold of its terms. -/
theorem gfMul_eq_foldr (a b : Byte) :
    gfMul a b = (List.range 8).foldr (fun k r => partialProduct a b k ^^^ r) 0#8 := by
  rw [gfMul_eq_xorBelow, foldr_range_xor, BitVec.xor_zero]

/-- Distributivity over XOR in the first factor (R104). -/
theorem gfMul_xor_left (a b c : Byte) : gfMul (a ^^^ b) c = gfMul a c ^^^ gfMul b c := by
  simp only [gfMul_eq_xorBelow, ← xorBelow_xor]
  refine xorBelow_congr fun k _ => ?_
  simp only [partialProduct]
  split
  · exact gfDouble_xorLinear.iterate k a b
  · rfl

/-- Distributivity over XOR in the second factor (R104). -/
theorem gfMul_xor_right (c a b : Byte) : gfMul c (a ^^^ b) = gfMul c a ^^^ gfMul c b := by
  simp only [gfMul_eq_xorBelow, ← xorBelow_xor]
  refine xorBelow_congr fun k _ => ?_
  simp only [partialProduct, BitVec.getLsbD_xor]
  cases a.getLsbD k <;> cases b.getLsbD k <;> simp

/-- Multiplication by the byte with bit `k` set is `k` doublings (R103). -/
theorem gfMul_twoPow (a : Byte) {k : Nat} (hk : k < 8) :
    gfMul a (BitVec.twoPow 8 k) = gfDouble^[k] a := by
  rw [gfMul_eq_xorBelow, xorBelow_congr (g := fun j => if k = j then gfDouble^[k] a else 0#8),
    xorBelow_single, if_pos hk]
  intro j _
  by_cases h : k = j
  · subst h; simp [partialProduct, hk]
  · simp [partialProduct, h]

/-- No bit of the second factor is set. -/
@[simp] theorem gfMul_zero (a : Byte) : gfMul a 0#8 = 0#8 :=
  XorLinear.map_zero (f := gfMul a) (gfMul_xor_right a)

/-- The only bit set is bit 0: no doubling. -/
@[simp] theorem gfMul_one (a : Byte) : gfMul a 1#8 = a := gfMul_twoPow a (k := 0) (by decide)

/-- Linear in `b`, and right on the doubles of 1. -/
theorem one_gfMul (b : Byte) : gfMul 0x01 b = b := by
  refine XorLinear.ext (f := gfMul 0x01) (gfMul_xor_right _) .id (fun k hk => ?_) b
  rw [gfMul_twoPow _ hk, iterate_gfDouble_one k hk, id]

/-- Doubling a factor doubles the product. -/
theorem gfMul_iterate_gfDouble_left (n : Nat) (a b : Byte) :
    gfMul (gfDouble^[n] a) b = gfDouble^[n] (gfMul a b) := by
  refine XorLinear.ext (g := gfDouble^[n] ∘ gfMul a) (gfMul_xor_right _)
    ((gfDouble_xorLinear.iterate n).comp (gfMul_xor_right a)) (fun k hk => ?_) b
  rw [Function.comp_apply, gfMul_twoPow _ hk, gfMul_twoPow _ hk]
  exact (Function.Commute.iterate_iterate_self gfDouble k n).eq a

/-- Multiplication is commutative: both sides are linear in `a` and agree on the doubles of 1 (R104). -/
theorem gfMul_comm (a b : Byte) : gfMul a b = gfMul b a := by
  refine XorLinear.ext (f := (gfMul · b)) (gfMul_xor_left · · b) (gfMul_xor_right b) (fun k hk => ?_) a
  calc gfMul (BitVec.twoPow 8 k) b
      = gfMul (gfDouble^[k] 0x01) b := by rw [iterate_gfDouble_one k hk]
    _ = gfDouble^[k] b := by rw [gfMul_iterate_gfDouble_left, one_gfMul]
    _ = gfMul b (BitVec.twoPow 8 k) := (gfMul_twoPow b hk).symm

/-- Multiplication is associative: both sides are linear in `c`, and doubling a factor doubles the product. -/
theorem gfMul_assoc (a b c : Byte) : gfMul (gfMul a b) c = gfMul a (gfMul b c) := by
  refine XorLinear.ext (g := gfMul a ∘ gfMul b) (gfMul_xor_right _)
    (XorLinear.comp (gfMul_xor_right a) (gfMul_xor_right b)) (fun k hk => ?_) c
  rw [Function.comp_apply, gfMul_twoPow _ hk, gfMul_twoPow _ hk, gfMul_comm a (gfDouble^[k] b),
    gfMul_iterate_gfDouble_left, gfMul_comm b a]

/-- Settles O16. -/
theorem multiplicationIsCommutativeAndDistributes :
    Obligations.MultiplicationIsCommutativeAndDistributes :=
  fun a b c => ⟨gfMul_comm a b, gfMul_xor_left a b c, gfMul_xor_right c a b⟩

/-- Settles O14: each multiplier is the XOR of its set bits, and each of them is a doubling chain. -/
theorem matrixMultipliersAreDoublingChains : Obligations.MatrixMultipliersAreDoublingChains := by
  intro b d1 d2 d3
  have h1 : gfMul b 0x01 = b := gfMul_one b
  have h2 : gfMul b 0x02 = d1 := gfMul_twoPow b (k := 1) (by decide)
  have h4 : gfMul b 0x04 = d2 := gfMul_twoPow b (k := 2) (by decide)
  have h8 : gfMul b 0x08 = d3 := gfMul_twoPow b (k := 3) (by decide)
  have h3 : gfMul b 0x03 = d1 ^^^ b := by
    rw [show (0x03 : Byte) = 0x02 ^^^ 0x01 from rfl, gfMul_xor_right, h2, h1]
  have h9 : gfMul b 0x09 = d3 ^^^ b := by
    rw [show (0x09 : Byte) = 0x08 ^^^ 0x01 from rfl, gfMul_xor_right, h8, h1]
  refine ⟨h1, h2, h3, h9, ?_, ?_, ?_⟩
  · rw [show (0x0B : Byte) = 0x08 ^^^ 0x02 ^^^ 0x01 from rfl, gfMul_xor_right, gfMul_xor_right, h8, h2, h1]
  · rw [show (0x0D : Byte) = 0x08 ^^^ 0x04 ^^^ 0x01 from rfl, gfMul_xor_right, gfMul_xor_right, h8, h4, h1]
  · rw [show (0x0E : Byte) = 0x08 ^^^ 0x04 ^^^ 0x02 from rfl, gfMul_xor_right, gfMul_xor_right, h8, h4, h2]

end Sys2Proof.Machine
end

section
/-!
The column mix as the product of a matrix with a vector, and its two matrices as inverse matrices (spec
40_gf_arithmetic.md R105, R106).
-/

namespace Sys2Proof.Machine

/-- The product of a matrix with a vector in the field. -/
def mulVec (m : Grid) (v : Quad) : Quad :=
  Quad.ofFn fun i =>
    gfMul (v.get 0) (m.get i 0) ^^^ gfMul (v.get 1) (m.get i 1) ^^^
      gfMul (v.get 2) (m.get i 2) ^^^ gfMul (v.get 3) (m.get i 3)

/-- The product of two matrices in the field: its columns are those of the second, multiplied by the
first. -/
def matMul (n m : Grid) : Grid := Grid.ofFn fun i k => (mulVec n (m.col k)).get i

/-- The identity matrix. -/
def mixIdentity : Grid := Grid.ofFn fun i k => if i = k then 0x01 else 0x00

/-- `mix` is the product with the matrix it chooses (R106). -/
theorem mix_eq_mulVec (v : Quad) (inverse : Bool) :
    mix v inverse = mulVec (if inverse then mixInverse else mixForward) v := rfl

/-- Multiplying by two matrices in turn is multiplying by their product. -/
theorem mulVec_mulVec (n m : Grid) (v : Quad) : mulVec n (mulVec m v) = mulVec (matMul n m) v := by
  refine Quad.ext_get fun i => ?_
  simp only [mulVec, matMul, Quad.get_ofFn, Grid.get_ofFn, Grid.get_col, gfMul_xor_left,
    gfMul_xor_right, gfMul_assoc]
  ac_rfl

/-- The identity matrix leaves a vector as it is. -/
theorem mulVec_mixIdentity (v : Quad) : mulVec mixIdentity v = v := by
  refine Quad.ext_get fun i => ?_
  rw [mulVec, Quad.get_ofFn]
  match i with
  | 0 | 1 | 2 | 3 => simp [mixIdentity]

/-- A matrix undoes another when their product is the identity. -/
theorem mulVec_mulVec_cancel {n m : Grid} (h : matMul n m = mixIdentity) (v : Quad) :
    mulVec n (mulVec m v) = v := by
  rw [mulVec_mulVec, h, mulVec_mixIdentity]

/-- INV times FWD (R105). -/
theorem matMul_mixInverse_mixForward : matMul mixInverse mixForward = mixIdentity := by decide

/-- FWD times INV (R105). -/
theorem matMul_mixForward_mixInverse : matMul mixForward mixInverse = mixIdentity := by decide

/-- The inverse mix undoes the forward mix (R106). -/
@[simp] theorem mix_true_mix_false (v : Quad) : mix (mix v false) true = v := by
  rw [mix_eq_mulVec, mix_eq_mulVec]
  exact mulVec_mulVec_cancel matMul_mixInverse_mixForward v

/-- The forward mix undoes the inverse mix (R106). -/
@[simp] theorem mix_false_mix_true (v : Quad) : mix (mix v true) false = v := by
  rw [mix_eq_mulVec, mix_eq_mulVec]
  exact mulVec_mulVec_cancel matMul_mixForward_mixInverse v

end Sys2Proof.Machine
end

section
/-!
The commands of the field arithmetic unit (spec 40_gf_arithmetic.md R107 to R111): each answers a function
of its operands.
-/

namespace Sys2Proof.Machine

/-- A byte in DATA is its number (R78). -/
theorem byteData_eq_ofNat (b : Byte) : byteData b = BitVec.ofNat 32 b.toNat := (BitVec.ofNat_toNat 32 b).symm

/-- The answer of GFMIX (R110). -/
theorem exec_gfmix_eq_afterOk (v : BitVec 32) (s : State) :
    exec (.gfmix v) s = .next (s.afterOk (packQuad (mix (unpackQuad v) false))) := by
  rw [exec_gfmix, execGfmix, respondOk_eq_afterOk]

/-- The answer of GFIMIX (R111). -/
theorem exec_gfimix_eq_afterOk (v : BitVec 32) (s : State) :
    exec (.gfimix v) s = .next (s.afterOk (packQuad (mix (unpackQuad v) true))) := by
  rw [exec_gfimix, execGfimix, respondOk_eq_afterOk]

/-- Settles O11. -/
theorem gfaddAnswersTheXor : Obligations.GfaddAnswersTheXor := by
  intro a b s
  rw [exec_gfadd, execGfadd, respondOk_eq_afterOk, byteData_eq_ofNat, gfAdd, BitVec.toNat_xor]

/-- Settles O12. -/
theorem gfdblAnswersTheDouble : Obligations.GfdblAnswersTheDouble := by
  intro a s
  rw [exec_gfdbl, execGfdbl, respondOk_eq_afterOk, byteData_eq_ofNat, gfDouble_toNat]

/-- Settles O13: the loop of R104 computes the sum of the terms. -/
theorem gfmulAnswersTheProduct : Obligations.GfmulAnswersTheProduct := by
  intro a b s
  rw [exec_gfmul, execGfmul, respondOk_eq_afterOk, byteData, gfMul_eq_foldr]
  rfl

/-- Settles O17: the rows of the forward matrix, with the factors 1 left out. -/
theorem gfmixAnswersTheForwardMix : Obligations.GfmixAnswersTheForwardMix := by
  intro v0 v1 v2 v3 s
  rw [exec_gfmix_eq_afterOk, unpackQuad_packed]
  simp only [mix_eq_mulVec, packQuad, mulVec, mixForward, Quad.ofFn, Grid.get, Grid.row, Quad.get]
  simp

/-- Settles O18: the rows of the inverse matrix. -/
theorem gfimixAnswersTheInverseMix : Obligations.GfimixAnswersTheInverseMix := by
  intro v0 v1 v2 v3 s
  rw [exec_gfimix_eq_afterOk, unpackQuad_packed]
  rfl

/-- Settles O19: packing and unpacking cancel, and so do the two mixes. -/
theorem gfimixUndoesGfmix : Obligations.GfimixUndoesGfmix := by
  intro v s
  refine ⟨⟨_, exec_gfmix_eq_afterOk v s, ?_⟩, ⟨_, exec_gfimix_eq_afterOk v s, ?_⟩⟩
  · rw [exec_gfimix_eq_afterOk, unpackQuad_packQuad, mix_true_mix_false, packQuad_unpackQuad]
  · rw [exec_gfmix_eq_afterOk, unpackQuad_packQuad, mix_false_mix_true, packQuad_unpackQuad]

end Sys2Proof.Machine
end

section
/-!
The constant tables and their commands (spec 41_substitution_tables.md R120 to R126): a table of rows is
read in index order, the two S-boxes are inverse permutations, and the round constants are the doubles of 1.
-/

namespace Sys2Proof.Machine

/-! ### The S-boxes -/

/-- Reading row `n / 16`, column `n % 16` is reading the rows in index order (R120). -/
theorem getElem?_flatten_rows {rows : List (List Byte)} (width : ∀ row ∈ rows, row.length = 16) (n : Nat)
    (hn : n < 16 * rows.length) :
    rows.flatten[n]? = some ((rows.getD (n / 16) []).getD (n % 16) 0) := by
  induction rows generalizing n with
  | nil => simp at hn
  | cons row rows ih =>
    have hrow : row.length = 16 := width row List.mem_cons_self
    rw [List.flatten_cons]
    by_cases first : n < 16
    · rw [List.getElem?_append_left (by omega), Nat.div_eq_of_lt first, Nat.mod_eq_of_lt first,
        List.getD_cons_zero, List.getD_eq_getElem _ _ (by omega), List.getElem?_eq_getElem]
    · obtain ⟨m, rfl⟩ := Nat.exists_eq_add_of_le' (Nat.le_of_not_lt first)
      have hm : m < 16 * rows.length := by rw [List.length_cons] at hn; omega
      rw [List.getElem?_append_right (by omega), hrow, Nat.add_sub_cancel,
        ih (fun r hr => width r (List.mem_cons_of_mem _ hr)) m hm, Nat.add_div_right m (by decide),
        List.getD_cons_succ, Nat.add_mod_right]

/-- A table of 16 rows of 16 bytes has an entry for every byte, which `tableAt` finds. -/
theorem getElem?_flatten_eq_tableAt {rows : List (List Byte)} (height : rows.length = 16)
    (width : ∀ row ∈ rows, row.length = 16) (x : Byte) :
    rows.flatten[x.toNat]? = some (tableAt rows x) :=
  getElem?_flatten_rows width x.toNat (by rw [height]; exact x.isLt)

/-- `SBOX[x]` is entry `x` of the forward table (R120). -/
theorem sboxAt_eq_entry (x : Byte) :
    (sboxRowsLow ++ sboxRowsHigh).flatten[x.toNat]? = some (sboxAt x) :=
  getElem?_flatten_eq_tableAt (by decide) (by decide) x

/-- `INV_SBOX[x]` is entry `x` of the inverse table (R121). -/
theorem invSboxAt_eq_entry (x : Byte) :
    (invSboxRowsLow ++ invSboxRowsHigh).flatten[x.toNat]? = some (invSboxAt x) :=
  getElem?_flatten_eq_tableAt (by decide) (by decide) x

/-- The inverse table undoes the forward table: the 256 entries read through it are the bytes in order
(R122). -/
@[simp] theorem invSboxAt_sboxAt : ∀ x : Byte, invSboxAt (sboxAt x) = x := by decide

/-- A left inverse between sets of equal size is a right inverse as well (R122). -/
@[simp] theorem sboxAt_invSboxAt : ∀ x : Byte, sboxAt (invSboxAt x) = x :=
  Function.LeftInverse.rightInverse_of_card_le invSboxAt_sboxAt le_rfl

/-- The answer of SBOX (R124). -/
theorem exec_sbox_eq_afterOk (a : Byte) (s : State) :
    exec (.sbox a) s = .next (s.afterOk ((sboxAt a).setWidth 32)) := by
  rw [exec_sbox, execSbox, respondOk_eq_afterOk, byteData]

/-- The answer of ISBOX (R125). -/
theorem exec_isbox_eq_afterOk (a : Byte) (s : State) :
    exec (.isbox a) s = .next (s.afterOk ((invSboxAt a).setWidth 32)) := by
  rw [exec_isbox, execIsbox, respondOk_eq_afterOk, byteData]

/-- Settles O20: the answers are the entries, and reading the other table at the answer gives the operand
back. -/
theorem sboxCommandsReadInverseTables : Obligations.SboxCommandsReadInverseTables := by
  intro a s
  refine ⟨sboxAt a, invSboxAt a, sboxAt_eq_entry a, invSboxAt_eq_entry a, exec_sbox_eq_afterOk a s,
    exec_isbox_eq_afterOk a s, ?_, ?_⟩
  · rw [exec_isbox_eq_afterOk, invSboxAt_sboxAt]
  · rw [exec_sbox_eq_afterOk, sboxAt_invSboxAt]

/-! ### The round constants -/

/-- Entry `i` of the round-constant table is 0x01 doubled `i` times (R123). -/
theorem rconAt_eq_iterate_gfDouble : ∀ i < Config.rconLen, rconAt i = gfDouble^[i] 0x01 := by decide

/-- The answer of RCON within the table (R126). -/
theorem exec_rcon_of_lt {i : BitVec 8} (hi : i.toNat < Config.rconLen) (s : State) :
    exec (.rcon i) s = .next (s.afterOk ((rconAt i.toNat).setWidth 32)) := by
  rw [exec_rcon, execRcon, numberOf, if_neg (Nat.not_le.mpr hi), respondOk_eq_afterOk, byteData]

/-- The error of RCON past the table (R126). -/
theorem exec_rcon_of_le {i : BitVec 8} (hi : Config.rconLen ≤ i.toNat) (s : State) :
    exec (.rcon i) s = .next (s.afterError Err.rangeError.code) := by
  rw [exec_rcon, execRcon, numberOf, if_pos hi, raise_eq_afterError]

/-- Settles O21: the table ends at index 9. -/
theorem rconAnswersDoublingsOfOne : Obligations.RconAnswersDoublingsOfOne := by
  intro i s
  refine ⟨fun within => ?_, fun past => exec_rcon_of_le past s⟩
  have hi : i.toNat < Config.rconLen := Nat.lt_succ_of_le within
  rw [exec_rcon_of_lt hi, rconAt_eq_iterate_gfDouble _ hi]

end Sys2Proof.Machine
end

section
/-!
The key expansion (spec 42_key_schedule.md R137 to R142): words once computed stay as the schedule grows, so
the recurrence of the loop holds of the finished schedule.
-/

namespace Sys2Proof.Machine

/-! ### The loop of the expansion -/

/-- The schedule after the seeding and `n` turns of the loop of R141. -/
def expandPrefix (nk : Nat) (key : List Byte) (n : Nat) : List Quad :=
  (List.range n).foldl (fun ws i => ws ++ [nextWord nk ws (nk + i)]) (seedWords nk key)

/-- The expansion is its loop run to the last column. -/
theorem expandKey_eq_expandPrefix {z : KeySize} {key : List Byte} (hl : key.length = z.klen) :
    expandKey key = expandPrefix z.nk key (4 * (z.nk + 7) - z.nk) := by
  rw [KeySize.nk, ← hl]; rfl

theorem expandPrefix_succ (nk : Nat) (key : List Byte) (n : Nat) :
    expandPrefix nk key (n + 1) =
      expandPrefix nk key n ++ [nextWord nk (expandPrefix nk key n) (nk + n)] := by
  simp only [expandPrefix, List.range_succ, List.foldl_append, List.foldl_cons, List.foldl_nil]

@[simp] theorem expandPrefix_length (nk : Nat) (key : List Byte) (n : Nat) :
    (expandPrefix nk key n).length = nk + n := by
  rw [expandPrefix, expandLoop_length, seedWords_length, List.length_range]

/-- A turn of the loop appends, so earlier words stay. -/
theorem expandPrefix_prefix {nk : Nat} {key : List Byte} {m n : Nat} (hmn : m ≤ n) :
    expandPrefix nk key m <+: expandPrefix nk key n := by
  induction n, hmn using Nat.le_induction with
  | base => exact List.prefix_rfl
  | succ n _ ih => exact ih.trans (expandPrefix_succ nk key n ▸ List.prefix_append _ _)

/-! ### Words of a list -/

theorem getElem?_eq_some_wordAt {ws : List Quad} {c : Nat} (hc : c < ws.length) :
    ws[c]? = some (wordAt ws c) := by
  rw [wordAt, List.getD_eq_getElem _ _ hc, List.getElem?_eq_getElem hc]

theorem wordAt_eq_of_prefix {ws vs : List Quad} (hp : ws <+: vs) {c : Nat} (hc : c < ws.length) :
    wordAt vs c = wordAt ws c := by
  rw [wordAt, wordAt, List.getD_eq_getElem _ _ hc, List.getD_eq_getElem _ _ (hc.trans_le hp.length_le),
    hp.getElem hc]

/-- The next word is computed from earlier words alone (R141). -/
theorem nextWord_eq_of_prefix {nk idx : Nat} {ws vs : List Quad} (hp : ws <+: vs) (hnk : 0 < nk)
    (hidx : nk ≤ idx) (hlen : idx ≤ ws.length) : nextWord nk vs idx = nextWord nk ws idx := by
  rw [nextWord, nextWord, wordAt_eq_of_prefix hp (c := idx - nk) (by omega),
    wordAt_eq_of_prefix hp (c := idx - 1) (by omega)]

/-! ### The words of a schedule -/

theorem KeySize.nk_pos (z : KeySize) : 0 < z.nk := by cases z <;> decide

/-- `NR = NK + 6` (R141). -/
theorem KeySize.nr_eq (z : KeySize) : z.nr = z.nk + 6 := by cases z <;> rfl

theorem KeySize.klen_eq (z : KeySize) : z.klen = 4 * z.nk := by cases z <;> rfl

/-- The words before NK are the seed (R140). -/
theorem expandKey_getElem?_of_lt {z : KeySize} {key : List Byte} (hl : key.length = z.klen) {c : Nat}
    (hc : c < z.nk) :
    (expandKey key)[c]? = some (Quad.ofFn fun r => key.getD (r.val + 4 * c) 0x00) := by
  have seeded : seedWords z.nk key <+: expandKey key :=
    expandKey_eq_expandPrefix hl ▸ expandPrefix_prefix (Nat.zero_le _)
  rw [List.prefix_iff_getElem?.mp seeded c (by rwa [seedWords_length])]
  simp [seedWords]

/-- From NK on the finished schedule satisfies the recurrence of its loop (R141). -/
theorem wordAt_expandKey {z : KeySize} {key : List Byte} (hl : key.length = z.klen) {idx : Nat}
    (hnk : z.nk ≤ idx) (hidx : idx < z.columns) :
    wordAt (expandKey key) idx = nextWord z.nk (expandKey key) idx := by
  obtain ⟨n, rfl⟩ := Nat.exists_eq_add_of_le hnk
  have hn : n + 1 ≤ 4 * (z.nk + 7) - z.nk := by
    rw [KeySize.columns, KeySize.nr_eq] at hidx; omega
  have before : expandPrefix z.nk key n <+: expandKey key :=
    expandKey_eq_expandPrefix hl ▸ expandPrefix_prefix (by omega)
  have after : expandPrefix z.nk key (n + 1) <+: expandKey key :=
    expandKey_eq_expandPrefix hl ▸ expandPrefix_prefix hn
  rw [wordAt_eq_of_prefix after (by simp), nextWord_eq_of_prefix before z.nk_pos hnk (by simp),
    expandPrefix_succ, wordAt]
  simp

/-! ### The three branches -/

/-- The round constants the expansion uses are within the table (R139). -/
theorem KeySize.rconIndex_lt {z : KeySize} {idx : Nat} (hidx : idx < z.columns) :
    idx / z.nk - 1 < Config.rconLen := by
  cases z <;> simp only [KeySize.columns, KeySize.nr, KeySize.nk, KeySize.klen, Config.rconLen] at * <;> omega

/-- The round-constant column is a double of 1 above three zeros (R123, R139). -/
theorem rconColumn_eq {i : Nat} (hi : i < Config.rconLen) :
    rconColumn i = ⟨gfDouble^[i] 0x01, 0x00, 0x00, 0x00⟩ := by
  rw [rconColumn, rconAt_eq_iterate_gfDouble i hi]

/-- Settles O24: seeding, then the recurrence, whose three branches are those of `expandTerm`. -/
theorem expansionFollowsTheRecurrence : Obligations.ExpansionFollowsTheRecurrence := by
  intro z key hl
  have hlen := expandKey_columns hl
  refine ⟨hlen, fun c hc => ⟨_, expandKey_getElem?_of_lt hl hc, fun r => ?_⟩, fun idx hnk hidx => ?_⟩
  · have hr : r.val + 4 * c < key.length := by rw [hl, KeySize.klen_eq]; omega
    rw [Quad.get_ofFn, List.getD_eq_getElem _ _ hr, List.getElem?_eq_getElem hr]
  · have hcols : idx < z.columns := hidx
    refine ⟨wordAt (expandKey key) (idx - z.nk), wordAt (expandKey key) (idx - 1),
      getElem?_eq_some_wordAt (by omega), getElem?_eq_some_wordAt (by omega), ?_⟩
    rw [getElem?_eq_some_wordAt (hlen ▸ hcols), wordAt_expandKey hl hnk hcols, nextWord, expandTerm,
      rconColumn_eq (KeySize.rconIndex_lt hcols)]
    rfl

end Sys2Proof.Machine
end

section
/-!
The key commands (spec 42_key_schedule.md R145 to R147): what each answers with and without a Key.
-/

namespace Sys2Proof.Machine

/-! ### KEYLD -/

theorem KeySize.ofLength_klen (z : KeySize) : KeySize.ofLength z.klen = some z := by cases z <;> rfl

/-- No other length is a legal one (R135). -/
theorem KeySize.ofLength_eq_none {n : Nat} (h16 : n ≠ 16) (h24 : n ≠ 24) (h32 : n ≠ 32) :
    KeySize.ofLength n = none := by
  rw [KeySize.ofLength, if_neg h16, if_neg h24, if_neg h32]

/-- A space read whole gives byte `i` where it has one (R52). -/
theorem memRead_whole_getElem? (m : Space) (i : Nat) : (memRead m 0 m.len)[i]? = m.get i := by
  rw [memRead_getElem?, Nat.zero_add, Space.get]
  exact ite_eq_left_iff.mpr fun past => (if_neg past).symm

/-- K after KEYLD holds the bytes of KSRC, novalue beyond them (R145). -/
theorem keyRegister_memRead_whole (m : Space) :
    keyRegister (memRead m 0 m.len) = Vector.ofFn fun i => m.get i.val := by
  simp only [keyRegister, memRead_whole_getElem?]

/-- Settles O22: the length of KSRC decides which of the two KEYLD does. -/
theorem keyldConstructsTheKey : Obligations.KeyldConstructsTheKey := by
  intro s
  refine ⟨fun z hz => ?_, fun h16 h24 h32 => ?_⟩
  · rw [exec_keyld, execKeyld, memLen, keyRegister_memRead_whole, hz, KeySize.ofLength_klen]
    rfl
  · rw [exec_keyld, execKeyld, memLen, KeySize.ofLength_eq_none h16 h24 h32]
    rfl

/-! ### KEXP -/

theorem withKey_of_KLEN {s : State} {z : KeySize} (hz : s.KLEN = some z) (k : KeySize → Result) :
    withKey s k = k z := by
  rw [withKey, hz]

/-- The error of KEXP without a Key (R146). -/
theorem exec_kexp_of_no_key {s : State} (h : s.KV = false) :
    exec .kexp s = .next (s.afterError Err.notReady.code) := by
  rw [exec_kexp, execKexp, if_pos (by simp [keyMissing, h]), raise_eq_afterError]

/-- With a Key, KEXP answers after `ensure_schedule` (R146). -/
theorem exec_kexp_of_ensureSchedule {s u : State} {z : KeySize} (hkv : s.KV = true) (hz : s.KLEN = some z)
    (hu : ensureSchedule z s = some u) : exec .kexp s = .next (u.afterOk 0x00000000) := by
  rw [exec_kexp, execKexp, if_neg (by simp [keyMissing, hkv]), withKey_of_KLEN hz, hu]
  exact congrArg Host.Outcome.next (respondOk_eq_afterOk _ u)

/-- `ensure_schedule` with SV = 1 (R144). -/
theorem ensureSchedule_of_SV {s : State} (h : s.SV = true) (z : KeySize) : ensureSchedule z s = some s := by
  rw [ensureSchedule, if_pos h]

/-- Settles O23: what KEXP does with a Key is what `ensure_schedule` does. -/
theorem kexpComputesTheScheduleOnce : Obligations.KexpComputesTheScheduleOnce := by
  intro s
  refine ⟨exec_kexp_of_no_key, fun z key hk hsv => ?_, fun z key hk hsv => ?_⟩ <;>
    have ⟨hkv, hz, _, _⟩ := hk
  · exact exec_kexp_of_ensureSchedule hkv hz (ensureSchedule_of_SV hsv z)
  · have notComputed : s.ScheduleIs key := fun computed => absurd computed (by simp [hsv])
    rw [exec_kexp_of_ensureSchedule hkv hz (ensureSchedule_of hk notComputed),
      State.afterOk, scheduleRegister]

/-! ### RDRK -/

/-- The error of RDRK without a Key (R147). -/
theorem exec_rdrk_of_no_key {s : State} (h : s.KV = false) (round row : BitVec 8) :
    exec (.rdrk round row) s = .next (s.afterError Err.notReady.code) := by
  rw [exec_rdrk, execRdrk, if_pos (by simp [keyMissing, h]), raise_eq_afterError]

/-- The error of RDRK above NR, before `ensure_schedule` (R147). -/
theorem exec_rdrk_of_nr_lt {s : State} {z : KeySize} (hkv : s.KV = true) (hz : s.KLEN = some z)
    {round : BitVec 8} (hround : z.nr < round.toNat) (row : BitVec 8) :
    exec (.rdrk round row) s = .next (s.afterError Err.rangeError.code) := by
  rw [exec_rdrk, execRdrk, if_neg (by simp [keyMissing, hkv]), withKey_of_KLEN hz, numberOf,
    if_pos hround, raise_eq_afterError]

/-- Up to NR, RDRK answers a row of the slice after `ensure_schedule` (R147). -/
theorem exec_rdrk_of_le_nr {s : State} {z : KeySize} {key : List Byte} (hk : s.HoldsKey z key)
    (hs : s.ScheduleIs key) {round : BitVec 8} (hround : round.toNat ≤ z.nr) (row : BitVec 8) :
    exec (.rdrk round row) s = .next
      (State.afterOk { s with W := scheduleRegister (expandKey key), SV := true }
        (packQuad ((roundKey (expandKey key) round.toNat).row (rowOf row)))) := by
  have ⟨hkv, hz, _, _⟩ := hk
  rw [exec_rdrk, execRdrk, if_neg (by simp [keyMissing, hkv]), withKey_of_KLEN hz, numberOf,
    if_neg (Nat.not_lt.mpr hround), withSchedule_of hk hs, respondOk_eq_afterOk]

theorem Grid.row_ofFn (f : Fin 4 → Fin 4 → Byte) : ∀ r, (Grid.ofFn f).row r = Quad.ofFn (f r)
  | 0 => rfl
  | 1 => rfl
  | 2 => rfl
  | 3 => rfl

/-- Row `r` of a slice is byte `r` of its four columns, packed in order (R87, R142). -/
theorem packQuad_roundKey_row (ws : List Quad) (rd : Nat) (r : Fin 4) :
    packQuad ((roundKey ws rd).row r) =
      (wordAt ws (4 * rd)).get r ++ (wordAt ws (4 * rd + 1)).get r ++
        (wordAt ws (4 * rd + 2)).get r ++ (wordAt ws (4 * rd + 3)).get r := by
  rw [roundKey, Grid.row_ofFn]
  rfl

/-- Settles O25: the slice of a round up to NR lies within the schedule, so its four columns are words of
the expansion. -/
theorem rdrkAnswersTheSliceRow : Obligations.RdrkAnswersTheSliceRow := by
  intro round row s
  refine ⟨fun h => exec_rdrk_of_no_key h round row, fun z key hk hround => ?_,
    fun z key hk hs hround _ => ?_⟩ <;> have ⟨hkv, hz, hl, _⟩ := hk
  · exact exec_rdrk_of_nr_lt hkv hz hround row
  · have inSlice : 4 * round.toNat + 3 < (expandKey key).length := by
      rw [expandKey_columns hl, KeySize.columns]; omega
    refine ⟨_, _, _, _, getElem?_eq_some_wordAt (by omega), getElem?_eq_some_wordAt (by omega),
      getElem?_eq_some_wordAt (by omega), getElem?_eq_some_wordAt inSlice, ?_⟩
    rw [exec_rdrk_of_le_nr hk hs hround, packQuad_roundKey_row]
    rfl

end Sys2Proof.Machine
end

section
/-!
A block in a byte space: the grid whose element `[i][j]` stands at `off + i + 4*j` (spec 43_block_state.md R160,
R161), and what taking it from the space and writing it there do.
-/

namespace Sys2Proof.Machine

/-- The 16 bytes of the space from `off` on are the block `g` (R160). -/
def Space.HasBlockAt (m : Space) (off : Nat) (g : Grid) : Prop :=
  ∀ i j : Fin 4, m.get (off + (i.val + 4 * j.val)) = some (g.get i j)

/-! ### The positions of a block -/

/-- Every position of a block is that of one element of the grid. -/
theorem exists_block_position {k : Nat} (hk : k < 16) : ∃ i j : Fin 4, k = i.val + 4 * j.val :=
  ⟨⟨k % 4, by omega⟩, ⟨k / 4, by omega⟩, by simp only; omega⟩

/-- Column by column, element `[i][j]` stands at `i + 4*j` (R161). -/
theorem flatOf_getElem? (g : Grid) (i j : Fin 4) : (flatOf g)[i.val + 4 * j.val]? = some (g.get i j) := by
  fin_cases i <;> fin_cases j <;> rfl

theorem Space.lt_of_get_eq_some {m : Space} {a : Nat} {b : Byte} (h : m.get a = some b) : a < m.len := by
  rw [Space.get, Option.ite_none_right_eq_some] at h
  exact h.1

/-- A block lies inside the space, since its last byte does. -/
theorem Space.HasBlockAt.fits {m : Space} {off : Nat} {g : Grid} (h : m.HasBlockAt off g) :
    off + 16 ≤ m.len :=
  Space.lt_of_get_eq_some (h 3 3)

/-- At one offset stands one block. -/
theorem Space.HasBlockAt.unique {m : Space} {off : Nat} {g g' : Grid} (h : m.HasBlockAt off g)
    (h' : m.HasBlockAt off g') : g = g' :=
  Grid.ext_get fun i j => Option.some.inj ((h i j).symm.trans (h' i j))

/-! ### Taking a block -/

/-- A read of a block finds all 16 bytes exactly when they lie inside the space (R52). -/
theorem memRead_block_length_eq_iff {m : Space} {off : Nat} :
    (memRead m off 16).length = 16 ↔ off + 16 ≤ m.len := by
  rw [memRead_length]; omega

/-- The grid of the 16 bytes read is the block that stands there. -/
theorem Space.hasBlockAt_gridOf_memRead {m : Space} {off : Nat} (h : off + 16 ≤ m.len) :
    m.HasBlockAt off (gridOf (memRead m off 16)) := by
  intro i j
  have hk : i.val + 4 * j.val < 16 := by omega
  have hr : i.val + 4 * j.val < (memRead m off 16).length := by
    rwa [memRead_block_length_eq_iff.mpr h]
  rw [gridOf, Grid.get_ofFn, List.getD_eq_getElem _ _ hr, ← List.getElem?_eq_getElem hr,
    memRead_getElem?, if_pos hk]

theorem Space.HasBlockAt.gridOf_memRead {m : Space} {off : Nat} {g : Grid} (h : m.HasBlockAt off g) :
    gridOf (memRead m off 16) = g :=
  (Space.hasBlockAt_gridOf_memRead h.fits).unique h

/-! ### Writing a block -/

/-- Every byte after a block was written inside the space (R53). -/
theorem memWrite_flatOf_get {m : Space} {off : Nat} (hm : m.wf = true) (h : off + 16 ≤ m.len) (g : Grid)
    (a : Nat) :
    (memWrite m off (flatOf g)).get a = if off ≤ a ∧ a < off + 16 then (flatOf g)[a - off]? else m.get a := by
  obtain ⟨hrising, -, -⟩ := Space.wf_iff.1 hm
  exact memWrite_get off (flatOf g) hrising h a

/-- A block written stands there. -/
theorem Space.hasBlockAt_memWrite {m : Space} {off : Nat} (hm : m.wf = true) (h : off + 16 ≤ m.len)
    (g : Grid) : (memWrite m off (flatOf g)).HasBlockAt off g := by
  intro i j
  rw [memWrite_flatOf_get hm h, if_pos (by omega), Nat.add_sub_cancel_left, flatOf_getElem?]

theorem memWrite_flatOf_get_outside {m : Space} {off : Nat} (hm : m.wf = true) (h : off + 16 ≤ m.len)
    (g : Grid) {a : Nat} (ha : a < off ∨ off + 16 ≤ a) : (memWrite m off (flatOf g)).get a = m.get a := by
  rw [memWrite_flatOf_get hm h, if_neg (by omega)]

/-- Writing the block that stands there already changes nothing. -/
theorem Space.HasBlockAt.memWrite_eq {m : Space} {off : Nat} {g : Grid} (hg : m.HasBlockAt off g)
    (hm : m.wf = true) : memWrite m off (flatOf g) = m := by
  refine Space.ext_get (memWrite_wf off _ hm hg.fits) hm fun a => ?_
  by_cases ha : a < off ∨ off + 16 ≤ a
  · exact memWrite_flatOf_get_outside hm hg.fits g ha
  · obtain ⟨i, j, hij⟩ := exists_block_position (k := a - off) (by omega)
    obtain rfl : a = off + (i.val + 4 * j.val) := by omega
    rw [Space.hasBlockAt_memWrite hm hg.fits g i j, hg i j]

end Sys2Proof.Machine
end

section
/-!
The block state commands (spec 43_block_state.md R163 to R166): what each answers in every case.
-/

namespace Sys2Proof.Machine

variable {off : BitVec 32} {s : State} {g : Grid}

/-! ### LOAD -/

/-- Fewer than 16 bytes: end of data (R163, R260). -/
theorem exec_load_of_lt (h : s.BUF.len < off.toNat + 16) :
    exec (.load off) s = .next (respondEod { s with S := none, BV := false }) := by
  have short : (memRead s.BUF off.toNat 16).length < 16 := by rw [memRead_length]; omega
  exact if_pos short

/-- A block at the offset becomes the Block State (R163). -/
theorem exec_load_of_hasBlockAt (h : s.BUF.HasBlockAt off.toNat g) :
    exec (.load off) s = .next (respondOk 0x00000000 { s with S := some g, BV := true }) := by
  have full : ¬ (memRead s.BUF off.toNat 16).length < 16 :=
    (memRead_block_length_eq_iff.mpr h.fits).not_lt
  rw [← h.gridOf_memRead]
  exact if_neg full

/-- Settles O26: the block that stands at the offset is the one LOAD reads. -/
theorem loadTakesTheBlock : Obligations.LoadTakesTheBlock :=
  fun _ _ _ => exec_load_of_hasBlockAt

/-- Settles O27: with 16 bytes inside BUF a block stands there. -/
theorem loadReportsEndOfData : Obligations.LoadReportsEndOfData :=
  fun _ _ => ⟨exec_load_of_lt, fun h => ⟨_, exec_load_of_hasBlockAt (Space.hasBlockAt_gridOf_memRead h)⟩⟩

/-! ### DUMP -/

theorem withBlock_of_S (h : s.S = some g) (k : Grid → Result) : withBlock s k = k g := by
  rw [withBlock, h]

theorem exec_dump_of_no_block (h : s.BV = false) :
    exec (.dump off) s = .next (s.afterError Err.notReady.code) := by
  rw [exec_dump, execDump, if_pos (by simp [blockMissing, h]), raise_eq_afterError]

/-- DUMP with a Block State and its window past the end (R259). -/
theorem exec_dump_of_lt (hb : s.BV = true) (h : s.BUF.len < off.toNat + 16) :
    exec (.dump off) s = .next (s.afterError Err.boundsError.code) := by
  rw [exec_dump, execDump, if_neg (by simp [blockMissing, hb]), memLen, numberOf,
    Config.blockBytes, if_pos h, raise_eq_afterError]

/-- DUMP with a Block State and its window inside BUF (R164). -/
theorem exec_dump_of_le (hb : s.HoldsBlock g) (h : off.toNat + 16 ≤ s.BUF.len) :
    exec (.dump off) s =
      .next (respondOk 0x00000000 { s with BUF := memWrite s.BUF off.toNat (flatOf g) }) := by
  obtain ⟨hbv, hs⟩ := hb
  rw [exec_dump, execDump, if_neg (by simp [blockMissing, hbv]), memLen, numberOf, Config.blockBytes,
    if_neg (Nat.not_lt.mpr h), withBlock_of_S hs]

/-- DUMP of the block that stands at its offset already changes nothing (R164, corner cases). -/
theorem exec_dump_of_hasBlockAt (hb : s.HoldsBlock g) (hg : s.BUF.HasBlockAt off.toNat g)
    (hm : s.BUF.wf = true) : exec (.dump off) s = .next (respondOk 0x00000000 s) := by
  rw [exec_dump_of_le hb hg.fits, hg.memWrite_eq hm]

/-- Settles O28: the block written stands at its offset, and every other byte is as before. -/
theorem dumpWritesTheBlock : Obligations.DumpWritesTheBlock := by
  intro off s g hwf hb h
  refine ⟨memWrite s.BUF off.toNat (flatOf g), ?_, memWrite_len _ _ _, Space.hasBlockAt_memWrite hwf h g,
    fun a => ?_⟩
  · rw [exec_dump_of_le hb h, respondOk_eq]
  · exact memWrite_flatOf_get_outside hwf h g

/-- Settles O29: the Block State is checked before the window. -/
theorem dumpOutOfBoundsWritesNothing : Obligations.DumpOutOfBoundsWritesNothing :=
  fun _ _ => ⟨exec_dump_of_no_block, exec_dump_of_lt⟩

/-! ### LOAD, then DUMP -/

theorem execAll_cons_of_next {i : Instr} {t : State} (h : exec i s = .next t) (rest : List Instr) :
    execAll (i :: rest) s = execAll rest t := by
  rw [execAll, h]

/-- Settles O32: LOAD takes the block that stands at the offset, and DUMP writes that block back. -/
theorem loadThenDumpLeavesBuf : Obligations.LoadThenDumpLeavesBuf := by
  intro off s hwf h
  have block := Space.hasBlockAt_gridOf_memRead h
  have load := exec_load_of_hasBlockAt block
  generalize gridOf (memRead s.BUF off.toNat 16) = g at block load
  have dump := exec_dump_of_hasBlockAt (s := respondOk 0x00000000 { s with S := some g, BV := true })
    ⟨rfl, rfl⟩ block hwf
  exact ⟨_, _, execAll_cons_of_next load [],
    (execAll_cons_of_next load _).trans (execAll_cons_of_next dump []), rfl, rfl, rfl⟩

/-! ### CONS -/

/-- CONS of a block is a LOAD that completes (R165). -/
theorem exec_cons_of_hasBlockAt (h : s.BUF.HasBlockAt off.toNat g) :
    exec (.cons off 16) s = .next (respondOk 0x00000000 { s with S := some g, BV := true }) := by
  have full : (memRead s.BUF off.toNat 16).length = 16 := memRead_block_length_eq_iff.mpr h.fits
  rw [← h.gridOf_memRead]
  exact if_neg (not_or.mpr ⟨not_not.mpr rfl, not_not.mpr full⟩)

/-- CONS of another length, or of fewer than 16 bytes (R165, R253). -/
theorem exec_cons_of_ne {len : BitVec 8} (h : len ≠ 16 ∨ s.BUF.len < off.toNat + 16) :
    exec (.cons off len) s = .next (s.afterError Err.stateSizeError.code) := by
  have bad : len.toNat ≠ 16 ∨ (memRead s.BUF off.toNat len.toNat).length ≠ 16 := by
    obtain hlen | hbuf := h
    · exact .inl fun h16 => hlen (BitVec.eq_of_toNat_eq h16)
    · rw [memRead_length]; omega
  exact if_pos bad

/-- Settles O30: a block at the offset is taken, and either defect of the operands raises the error. -/
theorem consNeedsExactlySixteenBytes : Obligations.ConsNeedsExactlySixteenBytes := by
  refine fun off len s => ⟨?_, exec_cons_of_ne⟩
  rintro g rfl block
  exact exec_cons_of_hasBlockAt block

/-! ### RDROW -/

/-- RDROW with a Block State answers the row its operand names (R166). -/
theorem exec_rdrow_of_block (hb : s.HoldsBlock g) (row : BitVec 8) :
    exec (.rdrow row) s = .next (s.afterOk (packQuad (g.row (rowOf row)))) := by
  obtain ⟨hbv, hs⟩ := hb
  rw [exec_rdrow, execRdrow, if_neg (by simp [blockMissing, hbv]), withBlock_of_S hs, respondOk_eq_afterOk]

/-- Settles O31: a row packed is its four elements, first byte highest. -/
theorem rdrowAnswersTheRow : Obligations.RdrowAnswersTheRow :=
  fun row _ _ hb _ => exec_rdrow_of_block hb row

end Sys2Proof.Machine
end

section
/-!
The round transforms as functions on grids (spec 44_round_transforms.md R180 to R183): the elements each gives,
and that each is undone by its inverse form.
-/

namespace Sys2Proof.Machine

variable (g : Grid) (inverse : Bool) (r c : Fin 4)

/-! ### SubBytes -/

/-- Each byte is replaced by its table entry (R180). -/
theorem subBytes_get :
    (subBytes g inverse).get r c = if inverse then invSboxAt (g.get r c) else sboxAt (g.get r c) :=
  Grid.get_ofFn _ r c

/-- The two tables undo each other byte by byte (R180). -/
theorem subBytes_subBytes_not : subBytes (subBytes g inverse) (!inverse) = g := by
  refine Grid.ext_get fun r c => ?_
  rw [subBytes_get, subBytes_get]
  cases inverse
  · exact invSboxAt_sboxAt (g.get r c)
  · exact sboxAt_invSboxAt (g.get r c)

/-! ### ShiftRows -/

/-- Row `r` comes from the columns `r` further on, or `r` further back, modulo 4 (R181). -/
theorem shiftRows_get :
    (shiftRows g inverse).get r c = if inverse then g.get r (c - r) else g.get r (c + r) :=
  Grid.get_ofFn _ r c

/-- A rotation left and one right by the same number of positions cancel (R181). -/
theorem shiftRows_shiftRows_not : shiftRows (shiftRows g inverse) (!inverse) = g := by
  refine Grid.ext_get fun r c => ?_
  simp only [shiftRows_get]
  cases inverse
  · exact congrArg (g.get r) (sub_add_cancel c r)
  · exact congrArg (g.get r) (add_sub_cancel_right c r)

/-- The rows rotated left, as R181 lists them. -/
theorem shiftRows_false_eq :
    shiftRows g false =
      ⟨g.r0, ⟨g.r1.b1, g.r1.b2, g.r1.b3, g.r1.b0⟩, ⟨g.r2.b2, g.r2.b3, g.r2.b0, g.r2.b1⟩,
        ⟨g.r3.b3, g.r3.b0, g.r3.b1, g.r3.b2⟩⟩ := rfl

/-- The rows rotated right, as R181 lists them. -/
theorem shiftRows_true_eq :
    shiftRows g true =
      ⟨g.r0, ⟨g.r1.b3, g.r1.b0, g.r1.b1, g.r1.b2⟩, ⟨g.r2.b2, g.r2.b3, g.r2.b0, g.r2.b1⟩,
        ⟨g.r3.b1, g.r3.b2, g.r3.b3, g.r3.b0⟩⟩ := rfl

/-! ### MixColumns -/

/-- Each column is the mix of the old column (R182). -/
@[simp] theorem mixColumns_col : (mixColumns g inverse).col c = mix (g.col c) inverse :=
  Quad.ext_get fun r => by rw [Grid.get_col, mixColumns, Grid.get_ofFn]

/-- The two forms of the mix undo each other (R106). -/
theorem mix_mix_not (v : Quad) : mix (mix v inverse) (!inverse) = v := by
  cases inverse
  · exact mix_true_mix_false v
  · exact mix_false_mix_true v

/-- The two forms undo each other column by column (R182). -/
theorem mixColumns_mixColumns_not : mixColumns (mixColumns g inverse) (!inverse) = g := by
  refine Grid.ext_get fun r c => ?_
  rw [← Grid.get_col, mixColumns_col, mixColumns_col, mix_mix_not, Grid.get_col]

/-! ### AddRoundKey -/

variable (ws : List Quad) (rd : Nat)

/-- Each byte is XORed with the byte of its row in its word of the slice (R142, R183). -/
theorem addRoundKey_get :
    (addRoundKey g ws rd).get r c = g.get r c ^^^ (wordAt ws (4 * rd + c.val)).get r := by
  rw [addRoundKey, Grid.get_ofFn, roundKey, Grid.get_ofFn]

/-- XOR with the same slice twice cancels (R183). -/
theorem addRoundKey_addRoundKey : addRoundKey (addRoundKey g ws rd) ws rd = g := by
  refine Grid.ext_get fun r c => ?_
  rw [addRoundKey_get, addRoundKey_get, BitVec.xor_assoc, BitVec.xor_self, BitVec.xor_zero]

/-- Settles O37, transform by transform. -/
theorem transformsAreUndone : Obligations.TransformsAreUndone := fun g ws rd inverse =>
  ⟨subBytes_subBytes_not g inverse, shiftRows_shiftRows_not g inverse,
    mixColumns_mixColumns_not g inverse, addRoundKey_addRoundKey g ws rd⟩

end Sys2Proof.Machine
end

section
/-!
The round transform commands (spec 44_round_transforms.md R185 to R191): each answers OK with its transform of the
Block State in S, and ADDRK has the round to check first.
-/

namespace Sys2Proof.Machine

variable {s : State} {z : KeySize} {g : Grid}

/-! ### The commands without an operand -/

/-- A transform of a held Block State writes S and answers OK, nothing else (R184). -/
theorem transformBlock_of_block (hb : s.HoldsBlock g) (f : Grid → Grid) :
    transformBlock f s =
      .next { s with S := some (f g), responses := s.responses ++ [⟨0x00, 0x00000000⟩] } := by
  rw [transformBlock_of hb, respondOk_eq]

/-- Settles O33: the grids are those of `subBytes` in its two forms. -/
theorem substitutionsReplaceEveryByte : Obligations.SubstitutionsReplaceEveryByte := fun _ g hb =>
  ⟨subBytes g false, subBytes g true, transformBlock_of_block hb _, transformBlock_of_block hb _,
    fun r c => ⟨subBytes_get g false r c, subBytes_get g true r c⟩⟩

/-- Settles O34: the rows of `shiftRows` in its two forms are those R181 lists. -/
theorem shiftsRotateTheRows : Obligations.ShiftsRotateTheRows := by
  intro s g hb
  rw [← shiftRows_false_eq, ← shiftRows_true_eq]
  exact ⟨transformBlock_of_block hb _, transformBlock_of_block hb _⟩

/-- Settles O35: the grids are those of `mixColumns` in its two forms. -/
theorem mixesWorkOnEachColumn : Obligations.MixesWorkOnEachColumn := fun _ g hb =>
  ⟨mixColumns g false, mixColumns g true, transformBlock_of_block hb _, transformBlock_of_block hb _,
    fun j => ⟨mixColumns_col g false j, mixColumns_col g true j⟩⟩

/-! ### ADDRK -/

/-- The error of ADDRK above NR, before `ensure_schedule` (R191). -/
theorem exec_addrk_of_nr_lt (hkv : s.KV = true) (hz : s.KLEN = some z) (hbv : s.BV = true)
    {round : BitVec 8} (hround : z.nr < round.toNat) :
    exec (.addrk round) s = .next (s.afterError Err.rangeError.code) := by
  rw [exec_addrk, execAddrk, cipherBlock, if_neg (by simp [keyOrBlockMissing, hkv, hbv]),
    withKey_of_KLEN hz, numberOf, if_pos (decide_eq_true hround), raise_eq_afterError]

/-- Up to NR, ADDRK answers OK with the round key added, after `ensure_schedule` (R191). -/
theorem exec_addrk_of_le_nr {key : List Byte} (hk : s.HoldsKey z key) (hs : s.ScheduleIs key)
    (hb : s.HoldsBlock g) {round : BitVec 8} (hround : round.toNat ≤ z.nr) :
    exec (.addrk round) s = .next
      (respondOk 0x00000000
        { s with
          S := some (addRoundKey g (expandKey key) round.toNat)
          W := scheduleRegister (expandKey key), SV := true }) := by
  rw [exec_addrk, execAddrk, cipherBlock_of hk hs hb _ _ (decide_eq_false hround.not_gt), numberOf]

/-- The slice of a round up to NR lies within the schedule (R136, R142). -/
theorem slice_lt_expandKey_length {key : List Byte} (hl : key.length = z.klen) {rd : Nat} (hrd : rd ≤ z.nr)
    (c : Fin 4) : 4 * rd + c.val < (expandKey key).length := by
  rw [expandKey_columns hl, KeySize.columns]; omega

/-- Settles O36: the words ADDRK uses are words of the expansion, since its slice lies within it. -/
theorem addrkXorsTheSlice : Obligations.AddrkXorsTheSlice := by
  intro round s z key g hk hb
  have ⟨hkv, hz, hl, _⟩ := hk
  have ⟨hbv, _⟩ := hb
  refine ⟨exec_addrk_of_nr_lt hkv hz hbv, fun hround hs =>
    ⟨addRoundKey g (expandKey key) round.toNat, ?_, fun r c => ?_⟩⟩
  · rw [exec_addrk_of_le_nr hk hs hb hround, respondOk_eq]
  · exact ⟨_, getElem?_eq_some_wordAt (slice_lt_expandKey_length hl hround c),
      addRoundKey_get g r c (expandKey key) round.toNat⟩

end Sys2Proof.Machine
end

section
/-!
The cipher routines as functions on grids (spec 45_cipher_pipeline.md R200, R201, R204): `decrypt_block` undoes
`encrypt_block` step by step in reverse order, and the other way round.
-/

namespace Sys2Proof.Machine

variable (g : Grid) (ws : List Quad) (rd n nr : Nat)

/-! ### The transforms without a key -/

/-- SubBytes, then ShiftRows: what every round of encryption begins with (R200). -/
def shiftSub : Grid := shiftRows (subBytes g false) false

/-- Inverse ShiftRows, then inverse SubBytes: what every round of decryption begins with (R201). -/
def invShiftSub : Grid := subBytes (shiftRows g true) true

theorem invShiftSub_shiftSub : invShiftSub (shiftSub g) = g :=
  (congrArg (subBytes · true) (shiftRows_shiftRows_not _ false)).trans (subBytes_subBytes_not g false)

theorem shiftSub_invShiftSub : shiftSub (invShiftSub g) = g :=
  (congrArg (shiftRows · false) (subBytes_subBytes_not _ true)).trans (shiftRows_shiftRows_not g true)

/-! ### One round -/

theorem encryptRound_eq :
    encryptRound ws g rd = addRoundKey (mixColumns (shiftSub g) false) ws rd := rfl

theorem decryptRound_eq :
    decryptRound ws g rd = mixColumns (addRoundKey (invShiftSub g) ws rd) true := rfl

/-- A round of decryption takes back one of encryption, the two meeting after the `shiftSub` of the next. -/
theorem decryptRound_shiftSub_encryptRound :
    decryptRound ws (shiftSub (encryptRound ws g rd)) rd = shiftSub g := by
  rw [decryptRound_eq, invShiftSub_shiftSub, encryptRound_eq, addRoundKey_addRoundKey]
  exact mixColumns_mixColumns_not (shiftSub g) false

/-- A round of encryption takes back one of decryption. -/
theorem encryptRound_invShiftSub_decryptRound :
    encryptRound ws (invShiftSub (decryptRound ws g rd)) rd = invShiftSub g := by
  have mixes := mixColumns_mixColumns_not (addRoundKey (invShiftSub g) ws rd) true
  rw [Bool.not_true] at mixes
  rw [encryptRound_eq, shiftSub_invShiftSub, decryptRound_eq, mixes, addRoundKey_addRoundKey]

/-! ### The loops -/

/-- The loop of `encrypt_block` for the rounds 1 to `n` (R200). -/
def encryptRounds : Grid := (List.range n).foldl (fun g k => encryptRound ws g (k + 1)) g

/-- The loop of `decrypt_block` for the rounds `n` down to 1 (R201). -/
def decryptRounds : Grid := (List.range n).reverse.foldl (fun g k => decryptRound ws g (k + 1)) g

/-- A loop run backwards takes back a loop when each turn takes back the turn of its index, seen through
`e`. -/
theorem foldl_reverse_foldl_cancel {α β : Type} {f h : α → β → α} {e : α → α}
    (turn : ∀ a k, h (e (f a k)) k = e a) (l : List β) (a : α) :
    l.reverse.foldl h (e (l.foldl f a)) = e a := by
  induction l generalizing a with
  | nil => rfl
  | cons k l ih =>
    rw [List.foldl_cons, List.reverse_cons, List.foldl_append, ih]
    exact turn a k

theorem decryptRounds_shiftSub_encryptRounds :
    decryptRounds (shiftSub (encryptRounds g ws n)) ws n = shiftSub g :=
  foldl_reverse_foldl_cancel (fun g k => decryptRound_shiftSub_encryptRound g ws (k + 1)) (List.range n) g

theorem encryptRounds_invShiftSub_decryptRounds :
    encryptRounds (invShiftSub (decryptRounds g ws n)) ws n = invShiftSub g := by
  have cancel := foldl_reverse_foldl_cancel (f := fun g k => decryptRound ws g (k + 1))
    (h := fun g k => encryptRound ws g (k + 1)) (e := invShiftSub)
    (fun g k => encryptRound_invShiftSub_decryptRound g ws (k + 1)) (List.range n).reverse g
  rwa [List.reverse_reverse] at cancel

/-! ### The routines -/

theorem encryptBlock_eq :
    encryptBlock g ws nr =
      addRoundKey (shiftSub (encryptRounds (addRoundKey g ws 0) ws (nr - 1))) ws nr := rfl

theorem decryptBlock_eq :
    decryptBlock g ws nr =
      addRoundKey (invShiftSub (decryptRounds (addRoundKey g ws nr) ws (nr - 1))) ws 0 := rfl

/-- Decryption undoes encryption under any schedule (R204). -/
theorem decryptBlock_encryptBlock : decryptBlock (encryptBlock g ws nr) ws nr = g := by
  rw [decryptBlock_eq, encryptBlock_eq, addRoundKey_addRoundKey, decryptRounds_shiftSub_encryptRounds,
    invShiftSub_shiftSub, addRoundKey_addRoundKey]

/-- Encryption undoes decryption under any schedule (R204). -/
theorem encryptBlock_decryptBlock : encryptBlock (decryptBlock g ws nr) ws nr = g := by
  rw [encryptBlock_eq, decryptBlock_eq, addRoundKey_addRoundKey, encryptRounds_invShiftSub_decryptRounds,
    shiftSub_invShiftSub, addRoundKey_addRoundKey]

/-- Encryption permutes the blocks (R204). -/
theorem encryptBlock_bijective : Function.Bijective fun g => encryptBlock g ws nr :=
  Function.bijective_iff_has_inverse.mpr ⟨fun g => decryptBlock g ws nr,
    fun g => decryptBlock_encryptBlock g ws nr, fun g => encryptBlock_decryptBlock g ws nr⟩

end Sys2Proof.Machine
end

section
/-!
The cipher commands (spec 45_cipher_pipeline.md R202 to R204): what ENCRYPT and DECRYPT answer with a Key and a
Block State, and that either takes back the other.
-/

namespace Sys2Proof.Machine

variable {s : State} {z : KeySize} {key : List Byte} {g : Grid}

/-! ### The states the cipher goes through -/

/-- The state with the schedule of `key` in W, another Block State, and other responses: what ENCRYPT, DECRYPT
and the transform commands make of a state. -/
def State.ciphered (s : State) (key : List Byte) (g : Grid) (rs : List Response) : State :=
  { s with S := some g, W := scheduleRegister (expandKey key), SV := true, responses := rs }

theorem State.HoldsKey.ciphered (hk : s.HoldsKey z key) (g : Grid) (rs : List Response) :
    (s.ciphered key g rs).HoldsKey z key :=
  hk.congr rfl rfl rfl

theorem State.ciphered_scheduleIs (s : State) (key : List Byte) (g : Grid) (rs : List Response) :
    (s.ciphered key g rs).ScheduleIs key :=
  fun _ => rfl

theorem State.ciphered_holdsBlock (hbv : s.BV = true) (key : List Byte) (g : Grid) (rs : List Response) :
    (s.ciphered key g rs).HoldsBlock g :=
  ⟨hbv, rfl⟩

/-! ### ENCRYPT and DECRYPT -/

/-- ENCRYPT with a Key and a Block State (R202). -/
theorem exec_encrypt_of_ready (hk : s.HoldsKey z key) (hs : s.ScheduleIs key) (hb : s.HoldsBlock g) :
    exec .encrypt s = .next
      (s.ciphered key (encryptBlock g (expandKey key) z.nr) (s.responses ++ [⟨0x00, 0x00000000⟩])) := by
  rw [exec_encrypt, execEncrypt, cipherBlock_of hk hs hb _ _ rfl, respondOk_eq, State.ciphered]

/-- DECRYPT with a Key and a Block State (R203). -/
theorem exec_decrypt_of_ready (hk : s.HoldsKey z key) (hs : s.ScheduleIs key) (hb : s.HoldsBlock g) :
    exec .decrypt s = .next
      (s.ciphered key (decryptBlock g (expandKey key) z.nr) (s.responses ++ [⟨0x00, 0x00000000⟩])) := by
  rw [exec_decrypt, execDecrypt, cipherBlock_of hk hs hb _ _ rfl, respondOk_eq, State.ciphered]

/-- Settles O38: W and SV after the command are those of `ensure_schedule`, S is the routine's result. -/
theorem cipherCommandsTransformTheBlock : Obligations.CipherCommandsTransformTheBlock :=
  fun _ _ _ _ hk hs hb => ⟨exec_encrypt_of_ready hk hs hb, exec_decrypt_of_ready hk hs hb⟩

/-- DECRYPT of a result of ENCRYPT (R204). -/
theorem exec_decrypt_ciphered_encryptBlock (hk : s.HoldsKey z key) (hbv : s.BV = true) (g : Grid)
    (rs : List Response) :
    exec .decrypt (s.ciphered key (encryptBlock g (expandKey key) z.nr) rs) =
      .next (s.ciphered key g (rs ++ [⟨0x00, 0x00000000⟩])) := by
  rw [exec_decrypt_of_ready (hk.ciphered _ _) (s.ciphered_scheduleIs key _ _)
    (s.ciphered_holdsBlock hbv key _ _), decryptBlock_encryptBlock]
  rfl

/-- ENCRYPT of a result of DECRYPT (R204). -/
theorem exec_encrypt_ciphered_decryptBlock (hk : s.HoldsKey z key) (hbv : s.BV = true) (g : Grid)
    (rs : List Response) :
    exec .encrypt (s.ciphered key (decryptBlock g (expandKey key) z.nr) rs) =
      .next (s.ciphered key g (rs ++ [⟨0x00, 0x00000000⟩])) := by
  rw [exec_encrypt_of_ready (hk.ciphered _ _) (s.ciphered_scheduleIs key _ _)
    (s.ciphered_holdsBlock hbv key _ _), encryptBlock_decryptBlock]
  rfl

/-- Settles O39: the second command starts with the first one's result in S and the same schedule in W. -/
theorem decryptUndoesEncrypt : Obligations.DecryptUndoesEncrypt := by
  refine ⟨fun z key _ => ?_, fun s z key g hk hs hb => ?_⟩
  · exact ⟨fun g => decryptBlock_encryptBlock g _ _, fun g => encryptBlock_decryptBlock g _ _,
      encryptBlock_bijective _ _⟩
  · have ⟨hbv, _⟩ := hb
    exact ⟨⟨_, (execAll_cons_of_next (exec_encrypt_of_ready hk hs hb) _).trans
        (execAll_cons_of_next (exec_decrypt_ciphered_encryptBlock hk hbv g _) []), rfl, rfl⟩,
      ⟨_, (execAll_cons_of_next (exec_decrypt_of_ready hk hs hb) _).trans
        (execAll_cons_of_next (exec_encrypt_ciphered_decryptBlock hk hbv g _) []), rfl, rfl⟩⟩

end Sys2Proof.Machine
end

section
/-!
The cipher one transform at a time (spec 45_cipher_pipeline.md R206): once the first ADDRK has put the schedule in
W, each command of the sequence applies its transform to S and changes nothing else but the responses.
-/

namespace Sys2Proof.Machine

variable {s : State} {z : KeySize} {key : List Byte} {g : Grid}

/-! ### Sequences of commands that apply a function to S -/

/-- With the schedule of `key` in W, the commands all complete, and together they apply `f` to the Block State
and give responses. -/
def Transforms (s : State) (key : List Byte) (is : List Instr) (f : Grid → Grid) : Prop :=
  ∀ g rs, ∃ rs', execAll is (s.ciphered key g rs) = .next (s.ciphered key (f g) rs')

theorem execAll_append_of_next {is : List Instr} {t : State} (h : execAll is s = .next t) (js : List Instr) :
    execAll (is ++ js) s = execAll js t := by
  induction is generalizing s with
  | nil => cases h; rfl
  | cons i is ih =>
    cases hi : exec i s with
    | next u =>
      rw [execAll_cons_of_next hi] at h
      rw [List.cons_append, execAll_cons_of_next hi, ih h]
    | fault | refused => rw [execAll, hi] at h; cases h

/-- One sequence after another composes their functions. -/
theorem Transforms.append {is js : List Instr} {f h : Grid → Grid} (hi : Transforms s key is f)
    (hj : Transforms s key js h) : Transforms s key (is ++ js) fun g => h (f g) := by
  intro g rs
  obtain ⟨rs₁, first⟩ := hi g rs
  obtain ⟨rs₂, second⟩ := hj (f g) rs₁
  exact ⟨rs₂, (execAll_append_of_next first js).trans second⟩

/-- The turns of a loop one after another are the loop of their functions. -/
theorem Transforms.flatMap {is : Nat → List Instr} {f : Grid → Nat → Grid} {l : List Nat}
    (turn : ∀ k ∈ l, Transforms s key (is k) fun g => f g k) :
    Transforms s key (l.flatMap is) fun g => l.foldl f g := by
  induction l with
  | nil => exact fun _ rs => ⟨rs, rfl⟩
  | cons k l ih =>
    obtain ⟨first, rest⟩ := List.forall_mem_cons.mp turn
    rw [List.flatMap_cons]
    exact first.append (ih rest)

/-! ### Each transform command -/

/-- A command whose meaning is a transform of the Block State (R185 to R190). -/
theorem Transforms.of_transformBlock {i : Instr} {f : Grid → Grid} (hbv : s.BV = true)
    (hi : ∀ t, exec i t = transformBlock f t) : Transforms s key [i] f := fun g rs =>
  ⟨_, execAll_cons_of_next ((hi _).trans (transformBlock_of_block (s.ciphered_holdsBlock hbv key g rs) f)) []⟩

theorem KeySize.nr_le (z : KeySize) : z.nr ≤ 14 := by cases z <;> decide

/-- A round number of the cipher fits the operand of ADDRK (R77). -/
theorem toNat_ofNat_of_le_nr {rd : Nat} (hrd : rd ≤ z.nr) : (BitVec.ofNat 8 rd).toNat = rd := by
  have := z.nr_le
  rw [BitVec.toNat_ofNat, Nat.mod_eq_of_lt (by omega)]

/-- ADDRK of a round of the cipher (R191). -/
theorem exec_addrk_of_ready (hk : s.HoldsKey z key) (hs : s.ScheduleIs key) (hb : s.HoldsBlock g) {rd : Nat}
    (hrd : rd ≤ z.nr) :
    exec (.addrk (BitVec.ofNat 8 rd)) s = .next
      (s.ciphered key (addRoundKey g (expandKey key) rd) (s.responses ++ [⟨0x00, 0x00000000⟩])) := by
  have operand := toNat_ofNat_of_le_nr hrd
  rw [exec_addrk_of_le_nr hk hs hb (by rwa [operand]), operand, respondOk_eq, State.ciphered]

theorem Transforms.addrk (hk : s.HoldsKey z key) (hbv : s.BV = true) {rd : Nat} (hrd : rd ≤ z.nr) :
    Transforms s key [.addrk (BitVec.ofNat 8 rd)] fun g => addRoundKey g (expandKey key) rd := fun g rs =>
  ⟨_, execAll_cons_of_next (exec_addrk_of_ready (hk.ciphered g rs) (s.ciphered_scheduleIs key g rs)
    (s.ciphered_holdsBlock hbv key g rs) hrd) []⟩

theorem Transforms.shiftSub (hbv : s.BV = true) : Transforms s key [.subbytes, .shiftrows] shiftSub :=
  (Transforms.of_transformBlock (f := (subBytes · false)) hbv fun _ => rfl).append
    (.of_transformBlock (f := (shiftRows · false)) hbv fun _ => rfl)

theorem Transforms.invShiftSub (hbv : s.BV = true) :
    Transforms s key [.ishiftrows, .isubbytes] invShiftSub :=
  (Transforms.of_transformBlock (f := (shiftRows · true)) hbv fun _ => rfl).append
    (.of_transformBlock (f := (subBytes · true)) hbv fun _ => rfl)

/-! ### The rounds -/

theorem Transforms.encryptRound (hk : s.HoldsKey z key) (hbv : s.BV = true) {rd : Nat} (hrd : rd ≤ z.nr) :
    Transforms s key [.subbytes, .shiftrows, .mixcols, .addrk (BitVec.ofNat 8 rd)]
      fun g => encryptRound (expandKey key) g rd :=
  ((Transforms.shiftSub hbv).append (.of_transformBlock (i := .mixcols) hbv fun _ => rfl)).append
    (.addrk hk hbv hrd)

theorem Transforms.decryptRound (hk : s.HoldsKey z key) (hbv : s.BV = true) {rd : Nat} (hrd : rd ≤ z.nr) :
    Transforms s key [.ishiftrows, .isubbytes, .addrk (BitVec.ofNat 8 rd), .imixcols]
      fun g => decryptRound (expandKey key) g rd :=
  ((Transforms.invShiftSub hbv).append (.addrk hk hbv hrd)).append
    (.of_transformBlock (i := .imixcols) hbv fun _ => rfl)

/-- The loop of ENCRYPT, one transform at a time. -/
theorem Transforms.encryptRounds (hk : s.HoldsKey z key) (hbv : s.BV = true) {n : Nat} (hn : n ≤ z.nr) :
    Transforms s key
      ((List.range n).flatMap fun k => [.subbytes, .shiftrows, .mixcols, .addrk (BitVec.ofNat 8 (k + 1))])
      fun g => encryptRounds g (expandKey key) n :=
  .flatMap fun _ inLoop => .encryptRound hk hbv ((List.mem_range.mp inLoop).trans_le hn)

/-- The loop of DECRYPT, one transform at a time. -/
theorem Transforms.decryptRounds (hk : s.HoldsKey z key) (hbv : s.BV = true) {n : Nat} (hn : n ≤ z.nr) :
    Transforms s key
      ((List.range n).reverse.flatMap fun k =>
        [.ishiftrows, .isubbytes, .addrk (BitVec.ofNat 8 (k + 1)), .imixcols])
      fun g => decryptRounds g (expandKey key) n :=
  .flatMap fun _ inLoop =>
    .decryptRound hk hbv ((List.mem_range.mp (List.mem_reverse.mp inLoop)).trans_le hn)

/-! ### The whole sequences -/

/-- An ADDRK puts the schedule in W, and so the commands after it apply their function (R144, R191). -/
theorem execAll_addrk_cons {is : List Instr} {f : Grid → Grid} {rd : Nat} (hk : s.HoldsKey z key)
    (hs : s.ScheduleIs key) (hb : s.HoldsBlock g) (hrd : rd ≤ z.nr) (rest : Transforms s key is f) :
    ∃ rs, execAll (.addrk (BitVec.ofNat 8 rd) :: is) s =
      .next (s.ciphered key (f (addRoundKey g (expandKey key) rd)) rs) := by
  obtain ⟨rs, h⟩ := rest (addRoundKey g (expandKey key) rd) (s.responses ++ [⟨0x00, 0x00000000⟩])
  exact ⟨rs, (execAll_cons_of_next (exec_addrk_of_ready hk hs hb hrd) is).trans h⟩

/-- The sequence for ENCRYPT ends with the result of `encrypt_block` in S (R206). -/
theorem execAll_encryptCommands (hk : s.HoldsKey z key) (hs : s.ScheduleIs key) (hb : s.HoldsBlock g) :
    ∃ rs, execAll (encryptCommands z.nr) s =
      .next (s.ciphered key (encryptBlock g (expandKey key) z.nr) rs) := by
  have ⟨hbv, _⟩ := hb
  exact execAll_addrk_cons hk hs hb (Nat.zero_le _) <|
    (Transforms.encryptRounds hk hbv (Nat.sub_le _ 1)).append
      ((Transforms.shiftSub hbv).append (.addrk hk hbv le_rfl))

/-- The sequence for DECRYPT ends with the result of `decrypt_block` in S (R206). -/
theorem execAll_decryptCommands (hk : s.HoldsKey z key) (hs : s.ScheduleIs key) (hb : s.HoldsBlock g) :
    ∃ rs, execAll (decryptCommands z.nr) s =
      .next (s.ciphered key (decryptBlock g (expandKey key) z.nr) rs) := by
  have ⟨hbv, _⟩ := hb
  exact execAll_addrk_cons hk hs hb le_rfl <|
    (Transforms.decryptRounds hk hbv (Nat.sub_le _ 1)).append
      ((Transforms.invShiftSub hbv).append (.addrk hk hbv (Nat.zero_le _)))

/-- Settles O40: the command and its sequence end in states that are `ciphered` alike, but for the responses. -/
theorem cipherCommandsEqualTheirTransforms : Obligations.CipherCommandsEqualTheirTransforms := by
  intro s z key g hk hs hb
  obtain ⟨_, encrypted⟩ := execAll_encryptCommands hk hs hb
  obtain ⟨_, decrypted⟩ := execAll_decryptCommands hk hs hb
  exact ⟨⟨_, _, exec_encrypt_of_ready hk hs hb, encrypted, rfl⟩,
    ⟨_, _, exec_decrypt_of_ready hk hs hb, decrypted, rfl⟩⟩

end Sys2Proof.Machine
end

section
/-!
The padding codec (spec 49_host_padding_and_streaming.md R221 to R223, R233, R236): what `append_padding` puts
after the bytes of a space, which offset the scan of `strip_padding` finds, and that stripping undoes appending.
-/

namespace Sys2Proof.Machine

variable {m : Space}

/-! ### Appending -/

theorem paddingBytes_length (len : Nat) : (paddingBytes len).length = 16 - len % 16 := by
  rw [paddingBytes, List.length_cons, List.length_replicate]
  omega

/-- The padded length is the next multiple of 16 (R221). -/
theorem appendPadding_len (m : Space) : (appendPadding m).len = 16 * (m.len / 16 + 1) := by
  rw [appendPadding, memAppend_len, memLen, paddingBytes_length]
  omega

/-- Every byte after `append_padding`. -/
theorem appendPadding_get (hm : m.wf = true) (a : Nat) :
    (appendPadding m).get a = if a < m.len then m.get a else (paddingBytes m.len)[a - m.len]? := by
  obtain ⟨hrising, -, -⟩ := Space.wf_iff.1 hm
  exact memAppend_get _ hrising a

/-- The marker of the padding stands at the old length (R221). -/
theorem appendPadding_get_marker (hm : m.wf = true) : (appendPadding m).get m.len = some 0x01 := by
  rw [appendPadding_get hm, if_neg (Nat.lt_irrefl _), Nat.sub_self]
  rfl

/-- After the marker come zeros only (R221). -/
theorem appendPadding_get_after_marker (hm : m.wf = true) {a : Nat} (after : m.len < a)
    (inside : a < (appendPadding m).len) : (appendPadding m).get a = some 0x00 := by
  rw [appendPadding_len] at inside
  obtain ⟨k, rfl⟩ := Nat.exists_eq_add_of_lt after
  rw [appendPadding_get hm, if_neg (Nat.not_lt.mpr after.le),
    show m.len + k + 1 - m.len = k + 1 by omega, paddingBytes, List.getElem?_cons_succ,
    List.getElem?_replicate_of_lt (by omega)]

/-- Settles O56: the padded length, and the bytes before, at and after the marker. -/
theorem paddingReachesTheNextMultiple : Obligations.PaddingReachesTheNextMultiple := by
  intro m hm
  have len := appendPadding_len m
  refine ⟨by omega, by omega, by omega, fun a inside => ?_, appendPadding_get_marker hm,
    fun a => appendPadding_get_after_marker hm⟩
  rw [appendPadding_get hm, if_pos inside]

/-! ### The scan for the marker -/

/-- The test of the scan: a read of one byte finds exactly the byte at its offset (R52, R222). -/
theorem memRead_one_eq_iff {i : Nat} {b : Byte} : memRead m i 1 = [b] ↔ m.get i = some b := by
  cases h : m.get i <;> simp [memRead, h]

theorem stripScan_succ_of_marker {n : Nat} (marker : m.get n = some 0x01) : stripScan m (n + 1) = some n :=
  if_pos (memRead_one_eq_iff.mpr marker)

/-- Any byte but the marker is passed over (R236). -/
theorem stripScan_succ_of_ne {n : Nat} (other : m.get n ≠ some 0x01) :
    stripScan m (n + 1) = stripScan m n :=
  if_neg (mt memRead_one_eq_iff.mp other)

/-- The scan finds nothing exactly when no offset below its start holds the marker (R223). -/
theorem stripScan_eq_none_iff {n : Nat} : stripScan m n = none ↔ ∀ a < n, m.get a ≠ some 0x01 := by
  induction n with
  | zero => simp [stripScan]
  | succ n ih =>
    rw [Nat.forall_lt_succ_right, ← ih]
    by_cases marker : m.get n = some 0x01
    · rw [stripScan_succ_of_marker marker]
      exact iff_of_false nofun fun h => h.2 marker
    · rw [stripScan_succ_of_ne marker]
      exact (and_iff_left marker).symm

/-- What the scan finds is the last marker below its start (R222). -/
theorem stripScan_eq_some_iff {n i : Nat} : stripScan m n = some i ↔
    i < n ∧ m.get i = some 0x01 ∧ ∀ a, i < a → a < n → m.get a ≠ some 0x01 := by
  induction n with
  | zero => simp [stripScan]
  | succ n ih =>
    by_cases marker : m.get n = some 0x01
    · rw [stripScan_succ_of_marker marker, Option.some.injEq]
      constructor
      · rintro rfl
        exact ⟨Nat.lt_succ_self n, marker, fun a _ _ => by omega⟩
      · rintro ⟨hi, -, last⟩
        by_contra hne
        exact last n (by omega) (Nat.lt_succ_self n) marker
    · rw [stripScan_succ_of_ne marker, ih]
      constructor
      · rintro ⟨hi, found, last⟩
        refine ⟨by omega, found, fun a ha hn => ?_⟩
        obtain rfl | hn := Nat.eq_or_lt_of_le (Nat.le_of_lt_succ hn)
        · exact marker
        · exact last a ha hn
      · rintro ⟨hi, found, last⟩
        obtain rfl | hi := Nat.eq_or_lt_of_le (Nat.le_of_lt_succ hi)
        · exact absurd found marker
        · exact ⟨hi, found, fun a ha hn => last a ha (by omega)⟩

/-! ### Stripping -/

/-- Settles O58: the scan starts at the length, and no offset from there on holds a byte. -/
theorem stripTruncatesAtTheLastMarker : Obligations.StripTruncatesAtTheLastMarker := by
  refine fun m _ => ⟨?none, fun n hn => ?some⟩
  case none =>
    rw [stripPadding, Option.map_eq_none_iff, stripScan_eq_none_iff]
    exact ⟨fun h a ha => h a (Space.lt_of_get_eq_some ha) ha, fun h a _ => h a⟩
  case some =>
    obtain ⟨i, hi, rfl⟩ := Option.map_eq_some_iff.1 hn
    obtain ⟨inside, found, last⟩ := stripScan_eq_some_iff.1 hi
    exact ⟨found, fun a ha held => last a ha (Space.lt_of_get_eq_some held) held,
      memTruncate_get i inside.le⟩

/-! ### Truncating what was appended -/

/-- A byte set at or above `n` is not seen below `n`. -/
theorem filter_lt_cellsSet {n a : Nat} (h : n ≤ a) (v : Byte) (l : List Host.Cell) :
    (cellsSet l a v).filter (fun c => c.1 < n) = l.filter (fun c => c.1 < n) := by
  induction l with
  | nil => unfold cellsSet; split <;> simp [h]
  | cons c t ih =>
    obtain ⟨x, b⟩ := c
    unfold cellsSet
    by_cases hlt : x < a
    · rw [if_pos hlt, List.filter_cons, List.filter_cons, ih]
    · rw [if_neg hlt]
      have hx : ¬ x < n := by omega
      split_ifs <;> simp [hx, Nat.not_lt.mpr h]

/-- A truncation forgets what was written from its length on. -/
theorem memTruncate_memWrite {m : Space} {n addr : Nat} (h : n ≤ addr) (v : List Byte) :
    memTruncate (memWrite m addr v) n = memTruncate m n := by
  induction v generalizing m addr with
  | nil => rfl
  | cons b v ih =>
    rw [memWrite, ih (Nat.le_succ_of_le h), memTruncate, filter_lt_cellsSet h, memTruncate]

/-- A truncation to the old length takes back an append. -/
theorem memTruncate_memAppend (hm : m.wf = true) (v : List Byte) :
    memTruncate (memAppend m v) m.len = m := by
  obtain ⟨-, hcells, -⟩ := Space.wf_iff.1 hm
  rw [memAppend, memTruncate_memWrite (Nat.le_refl _), memTruncate]
  exact congrArg (Space.mk m.len) (List.filter_eq_self.mpr fun c hc => decide_eq_true (hcells c hc).1)

/-- Stripping undoes appending (R233): the scan passes over the zeros and finds the marker at the old length. -/
theorem stripPadding_appendPadding (hm : m.wf = true) : stripPadding (appendPadding m) = some m := by
  have len := appendPadding_len m
  have found : stripScan (appendPadding m) (memLen (appendPadding m)) = some m.len := by
    rw [memLen, stripScan_eq_some_iff]
    refine ⟨by omega, appendPadding_get_marker hm, fun a after inside => ?_⟩
    rw [appendPadding_get_after_marker hm after inside]
    decide
  rw [stripPadding, found, Option.map_some, appendPadding, memTruncate_memAppend hm]

/-- Settles O57. -/
theorem stripUndoesAppend : Obligations.StripUndoesAppend :=
  fun _ => stripPadding_appendPadding

end Sys2Proof.Machine
end

section
/-!
The blocks of a byte space from offset 0 on, each replaced by a function of it, one after another: what a stream
procedure makes of BUF (spec 49_host_padding_and_streaming.md R224, R225).
-/

namespace Sys2Proof.Machine

variable {m : Space} {f h : Grid → Grid} {k : Nat}

/-- The space with its first `k` blocks replaced by their images under `f`, first block first. -/
def mapBlocks (f : Grid → Grid) (m : Space) : Nat → Space
  | 0 => m
  | k + 1 =>
    memWrite (mapBlocks f m k) (16 * k) (flatOf (f (gridOf (memRead (mapBlocks f m k) (16 * k) 16))))

@[simp] theorem mapBlocks_len (f : Grid → Grid) (m : Space) (k : Nat) : (mapBlocks f m k).len = m.len := by
  induction k with
  | zero => rfl
  | succ k ih => rw [mapBlocks, memWrite_len, ih]

theorem mapBlocks_wf (hm : m.wf = true) (hk : 16 * k ≤ m.len) : (mapBlocks f m k).wf = true := by
  induction k with
  | zero => exact hm
  | succ k ih => exact memWrite_wf _ _ (ih (by omega)) (by rw [flatOf_length, mapBlocks_len]; omega)

/-- The next turn replaces the block that stands after the first `k`. -/
theorem mapBlocks_succ_of_hasBlockAt {g : Grid} (hg : (mapBlocks f m k).HasBlockAt (16 * k) g) :
    mapBlocks f m (k + 1) = memWrite (mapBlocks f m k) (16 * k) (flatOf (f g)) := by
  rw [mapBlocks, hg.gridOf_memRead]

/-- A block stays when another one is written. -/
theorem Space.HasBlockAt.memWrite_other {j i : Nat} {g : Grid} (hm : m.wf = true)
    (inside : 16 * i + 16 ≤ m.len) (hg : m.HasBlockAt (16 * j) g) (hij : j ≠ i) (g' : Grid) :
    (memWrite m (16 * i) (flatOf g')).HasBlockAt (16 * j) g := by
  intro r c
  rw [memWrite_flatOf_get_outside hm inside g' (by omega)]
  exact hg r c

/-- The blocks after `k` turns: the first `k` under `f`, the later ones as they were. -/
theorem mapBlocks_hasBlockAt {j : Nat} {g : Grid} (hm : m.wf = true) (hk : 16 * k ≤ m.len)
    (hg : m.HasBlockAt (16 * j) g) :
    (mapBlocks f m k).HasBlockAt (16 * j) (if j < k then f g else g) := by
  induction k with
  | zero => exact hg
  | succ k ih =>
    have before := ih (by omega)
    have wf : (mapBlocks f m k).wf = true := mapBlocks_wf hm (by omega)
    have inside : 16 * k + 16 ≤ (mapBlocks f m k).len := by rw [mapBlocks_len]; omega
    by_cases hj : j = k
    · subst hj
      rw [if_neg (Nat.lt_irrefl j)] at before
      rw [if_pos (Nat.lt_succ_self j), mapBlocks_succ_of_hasBlockAt before]
      exact Space.hasBlockAt_memWrite wf inside (f g)
    · rw [if_congr (show j < k + 1 ↔ j < k by omega) rfl rfl, mapBlocks]
      exact before.memWrite_other wf inside hj _

/-- Spaces of `k` blocks with equal blocks are equal. -/
theorem Space.ext_hasBlockAt {n : Space} (hm : m.wf = true) (hn : n.wf = true) (hml : m.len = 16 * k)
    (hnl : n.len = 16 * k) (h : ∀ j < k, ∀ g, m.HasBlockAt (16 * j) g → n.HasBlockAt (16 * j) g) : m = n := by
  refine Space.ext_get hm hn fun a => ?_
  by_cases ha : a < 16 * k
  · have block : m.HasBlockAt (16 * (a / 16)) _ := Space.hasBlockAt_gridOf_memRead (by omega)
    obtain ⟨r, c, hrc⟩ := exists_block_position (Nat.mod_lt a (by decide : 0 < 16))
    rw [← Nat.div_add_mod a 16, hrc, block r c, h _ (by omega) _ block r c]
  · rw [Space.get, Space.get, if_neg (by omega), if_neg (by omega)]

/-- Turns of `h` take back as many turns of `f` when `h` undoes `f`. -/
theorem mapBlocks_mapBlocks_cancel (hm : m.wf = true) (hk : m.len = 16 * k) (cancel : ∀ g, h (f g) = g) :
    mapBlocks h (mapBlocks f m k) k = m := by
  have wf : (mapBlocks f m k).wf = true := mapBlocks_wf hm hk.ge
  have len : (mapBlocks f m k).len = 16 * k := by rw [mapBlocks_len, hk]
  refine (Space.ext_hasBlockAt hm (mapBlocks_wf wf len.ge) hk (by rw [mapBlocks_len, len])
    fun j hj g hg => ?_).symm
  have twice := mapBlocks_hasBlockAt (f := h) wf len.ge (mapBlocks_hasBlockAt (f := f) hm hk.ge hg)
  rwa [if_pos hj, if_pos hj, cancel] at twice

end Sys2Proof.Machine
end

section
/-!
The block streaming driver (spec 49_host_padding_and_streaming.md R224, R225, R229, R235): what each stage of a
stream procedure does when its command completes, the run of a whole stream, and that `decrypt_stream` undoes
`encrypt_stream`.
-/

namespace Sys2Proof.Machine

variable {s t u : State} {z : KeySize} {key : List Byte} {g : Grid} {d : Direction} {off : Nat} {rest : List Move}

/-! ### Issuing a command of a stream -/

@[simp] theorem latestSt_answer (st : BitVec 8) (data : BitVec 32) (s : State) :
    latestSt (answer st data s) = some st := by
  simp [latestSt]

/-- On OK the procedure goes on (R229). -/
theorem streamIssue_of_ok {i : Instr} (hi : decodeFields i.fields = .ok i) (hu : exec i s = .next u)
    (ok : latestSt u = some stOk) (onOk : State → State) (onEod : Option (State → State)) :
    streamIssue i onOk onEod s = .next (onOk u) := by
  rw [streamIssue, issue_encode hi, hu]
  cases onEod <;> simp [ok, stOk, stEod]

/-- At the end of the data the procedure ends. -/
theorem streamIssue_of_eod {i : Instr} (hi : decodeFields i.fields = .ok i) (hu : exec i s = .next u)
    (eod : latestSt u = some stEod) (onOk f : State → State) :
    streamIssue i onOk (some f) s = .next (f u) := by
  rw [streamIssue, issue_encode hi, hu]
  simp [eod]

/-- An offset below 2^32 has an operand (R60, R85). -/
theorem streamAt_of_lt (h : off < 2 ^ 32) (s : State) (k : BitVec 32 → State → Result) :
    streamAt off s k = k (BitVec.ofNat 32 off) s :=
  if_pos h

theorem toNat_offset_of_lt (h : off < 2 ^ 32) : (BitVec.ofNat 32 off).toNat = off := by
  rw [BitVec.toNat_ofNat, Nat.mod_eq_of_lt h]

/-! ### The stages of a stream -/

theorem makeMove_streamLoad_of_hasBlockAt (hoff : off < 2 ^ 32) (hg : s.BUF.HasBlockAt off g) :
    makeMove (.streamLoad d off) s =
      .next (goOn [.streamCipher d off] (respondOk 0x00000000 { s with S := some g, BV := true })) := by
  have load := exec_load_of_hasBlockAt (off := BitVec.ofNat 32 off) (s := s) (g := g)
    (by rwa [toNat_offset_of_lt hoff])
  rw [makeMove, streamAt_of_lt hoff, streamIssue_of_ok (decodeFields_load _) load (latestSt_answer _ _ _)]

theorem makeMove_streamLoad_of_lt (hoff : off < 2 ^ 32) (h : s.BUF.len < off + 16) :
    makeMove (.streamLoad d off) s =
      .next (streamEnd d (respondEod { s with S := none, BV := false })) := by
  have load := exec_load_of_lt (off := BitVec.ofNat 32 off) (s := s) (by rwa [toNat_offset_of_lt hoff])
  rw [makeMove, streamAt_of_lt hoff, streamIssue_of_eod (decodeFields_load _) load (latestSt_answer _ _ _)]

/-- The routine of the cipher command of a direction, under a schedule (R200, R201). -/
def streamCipherBlock : Direction → List Quad → Nat → Grid → Grid
  | .encrypt, ws, nr, g => encryptBlock g ws nr
  | .decrypt, ws, nr, g => decryptBlock g ws nr

theorem exec_streamCipherInstr_of_ready (hk : s.HoldsKey z key) (hs : s.ScheduleIs key) (hb : s.HoldsBlock g) :
    exec (streamCipherInstr d) s = .next
      (s.ciphered key (streamCipherBlock d (expandKey key) z.nr g) (s.responses ++ [⟨0x00, 0x00000000⟩])) := by
  cases d
  · exact exec_encrypt_of_ready hk hs hb
  · exact exec_decrypt_of_ready hk hs hb

theorem makeMove_streamCipher_of_ready (hk : s.HoldsKey z key) (hs : s.ScheduleIs key) (hb : s.HoldsBlock g) :
    makeMove (.streamCipher d off) s = .next
      (goOn [.streamDump d off] (s.ciphered key (streamCipherBlock d (expandKey key) z.nr g)
        (s.responses ++ [⟨0x00, 0x00000000⟩]))) := by
  rw [makeMove, streamIssue_of_ok (decodeFields_streamCipherInstr d) (exec_streamCipherInstr_of_ready hk hs hb)
    (by simp [latestSt, State.ciphered, stOk])]

theorem makeMove_streamDump_of_le (hoff : off < 2 ^ 32) (hb : s.HoldsBlock g) (h : off + 16 ≤ s.BUF.len) :
    makeMove (.streamDump d off) s = .next
      (goOn [.streamLoad d (off + 16)]
        (respondOk 0x00000000 { s with BUF := memWrite s.BUF off (flatOf g) })) := by
  have dump := exec_dump_of_le (off := BitVec.ofNat 32 off) hb (by rwa [toNat_offset_of_lt hoff])
  rw [toNat_offset_of_lt hoff] at dump
  rw [makeMove, streamAt_of_lt hoff, streamIssue_of_ok (decodeFields_dump _) dump (latestSt_answer _ _ _),
    Config.blockBytes]

/-! ### The run of a stream -/

/-- `t` is what `n` commands of a stream procedure make of `s`, the Key of which it uses: `n` responses more,
the results of the HOST as they were, the schedule of the Key in W or yet to come, and `m` in BUF. -/
structure Streaming (z : KeySize) (key : List Byte) (s : State) (n : Nat) (m : Space) (t : State) : Prop where
  holdsKey : t.HoldsKey z key
  scheduleIs : t.ScheduleIs key
  buf : t.BUF = m
  responses : t.responses.length = s.responses.length + n
  hostResults : t.hostResults = s.hostResults

variable {n k : Nat} {m : Space}

/-- A stream may begin on any BUF. -/
theorem Streaming.start (hk : s.HoldsKey z key) (hs : s.ScheduleIs key) (m : Space) (ms : List Move) :
    Streaming z key s 0 m { s with BUF := m, host := ms } :=
  ⟨hk.congr rfl rfl rfl, hs.congr rfl rfl, rfl, rfl, rfl⟩

theorem Streaming.step_load (ht : Streaming z key s n m t) (hm : t.host = .streamLoad d off :: rest)
    (hoff : off < 2 ^ 32) (hg : m.HasBlockAt off g) :
    ∃ u, step t = .next u ∧ u.host = .streamCipher d off :: rest ∧ u.HoldsBlock g ∧
      Streaming z key s (n + 1) m u := by
  obtain ⟨hk, hs, rfl, hr, hh⟩ := ht
  refine ⟨_, (step_cons hm).trans (makeMove_streamLoad_of_hasBlockAt hoff hg), rfl, ⟨rfl, rfl⟩,
    hk.congr rfl rfl rfl, hs.congr rfl rfl, rfl, ?_, hh⟩
  simp [hr, Nat.add_assoc]

theorem Streaming.step_cipher (ht : Streaming z key s n m t) (hm : t.host = .streamCipher d off :: rest)
    (hb : t.HoldsBlock g) :
    ∃ u, step t = .next u ∧ u.host = .streamDump d off :: rest ∧
      u.HoldsBlock (streamCipherBlock d (expandKey key) z.nr g) ∧ Streaming z key s (n + 1) m u := by
  obtain ⟨hk, hs, rfl, hr, hh⟩ := ht
  have ⟨hbv, _⟩ := hb
  refine ⟨_, (step_cons hm).trans (makeMove_streamCipher_of_ready (hk.congr rfl rfl rfl) (hs.congr rfl rfl)
    (hb.congr rfl rfl)), rfl, ⟨hbv, rfl⟩, hk.congr rfl rfl rfl, fun _ => rfl, rfl, ?_, hh⟩
  simp [State.ciphered, hr, Nat.add_assoc]

theorem Streaming.step_dump (ht : Streaming z key s n m t) (hm : t.host = .streamDump d off :: rest)
    (hoff : off < 2 ^ 32) (hb : t.HoldsBlock g) (inside : off + 16 ≤ m.len) :
    ∃ u, step t = .next u ∧ u.host = .streamLoad d (off + 16) :: rest ∧
      Streaming z key s (n + 1) (memWrite m off (flatOf g)) u := by
  obtain ⟨hk, hs, rfl, hr, hh⟩ := ht
  have dump := makeMove_streamDump_of_le (s := { t with host := rest }) (d := d) hoff
    (hb.congr rfl rfl) inside
  -- The laws of the updates close these; `rfl` would reduce the write to BUF.
  refine ⟨_, (step_cons hm).trans dump, rfl, hk.congr ?_ ?_ ?_, hs.congr ?_ ?_, rfl, ?_, ?_⟩ <;>
    simp [hr, hh, Nat.add_assoc]

/-- One turn of the loop: the block at the offset is replaced by its image (R224, R225). -/
theorem Streaming.run_turn (ht : Streaming z key s n m t) (hm : t.host = .streamLoad d off :: rest)
    (hoff : off < 2 ^ 32) (hg : m.HasBlockAt off g) :
    ∃ u, core.run 3 t = .next u ∧ u.host = .streamLoad d (off + 16) :: rest ∧
      Streaming z key s (n + 3)
        (memWrite m off (flatOf (streamCipherBlock d (expandKey key) z.nr g))) u := by
  obtain ⟨t₁, load, hm₁, hb₁, ht₁⟩ := ht.step_load hm hoff hg
  obtain ⟨t₂, cipher, hm₂, hb₂, ht₂⟩ := ht₁.step_cipher hm₁ hb₁
  obtain ⟨t₃, dump, hm₃, ht₃⟩ := ht₂.step_dump hm₂ hoff hb₂ hg.fits
  exact ⟨t₃, (run_succ load).trans ((run_succ cipher).trans (run_succ dump)), hm₃, ht₃⟩

/-- The first `k` turns of the loop. -/
theorem Streaming.run_turns (ht : Streaming z key s 0 m t) (hm : t.host = .streamLoad d 0 :: rest)
    (hk : 16 * k ≤ m.len) (hmax : m.len < 2 ^ 32) :
    ∃ u, core.run (3 * k) t = .next u ∧ u.host = .streamLoad d (16 * k) :: rest ∧
      Streaming z key s (3 * k) (mapBlocks (streamCipherBlock d (expandKey key) z.nr) m k) u := by
  induction k with
  | zero => exact ⟨t, rfl, hm, ht⟩
  | succ k ih =>
    obtain ⟨u, run, hm₁, hu⟩ := ih (by omega)
    obtain ⟨v, turn, hm₂, hv⟩ := hu.run_turn hm₁ (by omega)
      (Space.hasBlockAt_gridOf_memRead (by rw [mapBlocks_len]; omega))
    exact ⟨v, (run_add run).trans turn, hm₂, hv⟩

/-- The whole loop over a BUF of `k` blocks: `3*k + 1` commands, the last of which reports the end of the data,
and then what the procedure does there (R224, R225). -/
theorem Streaming.run_stream (ht : Streaming z key s 0 m t) (hm : t.host = .streamLoad d 0 :: rest)
    (hk : m.len = 16 * k) (hmax : m.len < 2 ^ 32) :
    ∃ u, core.run (3 * k + 1) t = .next (streamEnd d u) ∧ u.host = rest ∧
      Streaming z key s (3 * k + 1) (mapBlocks (streamCipherBlock d (expandKey key) z.nr) m k) u := by
  obtain ⟨u, run, hmu, hk, hs, hbuf, hr, hh⟩ := ht.run_turns hm hk.ge hmax
  have past : u.BUF.len < 16 * k + 16 := by rw [hbuf, mapBlocks_len]; omega
  have load := (step_cons hmu).trans (makeMove_streamLoad_of_lt (by omega) past)
  refine ⟨_, (run_add run).trans (run_succ load), rfl, hk.congr rfl rfl rfl, hs.congr rfl rfl, hbuf, ?_, hh⟩
  simp [hr, Nat.add_assoc]

/-! ### The two procedures -/

/-- With KV = 1 the invariant gives the Key in K and what W is to it (R39 a to c). -/
theorem State.Inv.exists_key (h : s.Inv) (hkv : s.KV = true) :
    ∃ z key, s.HoldsKey z key ∧ s.ScheduleIs key := by
  obtain ⟨hkey, hsch, -⟩ := State.inv_iff.1 h
  obtain ⟨-, z, key, hk, hw⟩ | ⟨hsv, -⟩ := hsch
  · exact ⟨z, key, hk, fun _ => hw⟩
  · obtain ⟨z, key, hk⟩ | ⟨hno, -, -⟩ := hkey
    · exact ⟨z, key, hk, fun computed => absurd computed (by simp [hsv])⟩
    · exact absurd hkv (by simp [hno])

theorem makeMove_appendPadding_of_le (h : (appendPadding s.BUF).len ≤ Config.maxLen) :
    makeMove .appendPadding s = .next { s with BUF := appendPadding s.BUF } :=
  if_neg (Nat.not_lt.mpr h)

theorem makeMove_stripPadding_of_some (h : stripPadding s.BUF = some m) :
    makeMove .stripPadding s = .next (note .returned { s with BUF := m }) := by
  rw [makeMove, h]

/-- The run of `encrypt_stream`: one step to begin it, one for the padding, then the loop over the padded
blocks (R224). -/
theorem run_encryptStream (hk : s.HoldsKey z key) (hs : s.ScheduleIs key)
    (hm : s.host = .encryptStream :: rest) (hpad : (appendPadding s.BUF).len = 16 * k)
    (hmax : (appendPadding s.BUF).len ≤ Config.maxLen) :
    ∃ t, core.run (2 + (3 * k + 1)) s = .next t ∧ t.host = rest ∧ t.HoldsKey z key ∧ t.ScheduleIs key ∧
      t.BUF = mapBlocks (streamCipherBlock .encrypt (expandKey key) z.nr) (appendPadding s.BUF) k ∧
      t.responses.length = s.responses.length + (3 * k + 1) ∧
      t.hostResults = s.hostResults ++ [.returned] := by
  have begins : step s = .next { s with host := .appendPadding :: .streamLoad .encrypt 0 :: rest } :=
    step_cons hm
  have pads : step { s with host := .appendPadding :: .streamLoad .encrypt 0 :: rest } =
      .next { s with BUF := appendPadding s.BUF, host := .streamLoad .encrypt 0 :: rest } :=
    makeMove_appendPadding_of_le hmax
  obtain ⟨u, run, hmu, hku, hsu, hbuf, hr, hh⟩ :=
    (Streaming.start hk hs (appendPadding s.BUF) _).run_stream (d := .encrypt) rfl hpad
      (Nat.lt_of_le_of_lt hmax (by decide))
  exact ⟨_, (run_add ((run_succ begins).trans (run_succ pads))).trans run, hmu, hku.congr rfl rfl rfl,
    hsu.congr rfl rfl, hbuf, hr, by rw [streamEnd, note_hostResults, hh]⟩

/-- The run of `decrypt_stream`: one step to begin it, the loop over the blocks, and one for the padding
(R225). -/
theorem run_decryptStream (hk : s.HoldsKey z key) (hs : s.ScheduleIs key)
    (hm : s.host = .decryptStream :: rest) (hlen : s.BUF.len = 16 * k) (hmax : s.BUF.len < 2 ^ 32)
    (strip : stripPadding (mapBlocks (streamCipherBlock .decrypt (expandKey key) z.nr) s.BUF k) = some m) :
    ∃ t, core.run (1 + (3 * k + 1) + 1) s = .next t ∧ t.host = rest ∧ t.BUF = m ∧
      t.hostResults = s.hostResults ++ [.returned] := by
  have begins : step s = .next { s with host := .streamLoad .decrypt 0 :: rest } := step_cons hm
  obtain ⟨u, run, hmu, -, -, hbuf, -, hh⟩ := (Streaming.start hk hs s.BUF _).run_stream rfl hlen hmax
  have strips : step (streamEnd .decrypt u) = .next (note .returned { u with BUF := m }) :=
    makeMove_stripPadding_of_some (hbuf ▸ strip)
  exact ⟨_, (run_add ((run_add (run_succ begins)).trans run)).trans (run_succ strips), hmu, rfl,
    by rw [note_hostResults, hh]⟩

/-- Settles O59: decryption takes back encryption block by block, which leaves the padded bytes to strip. -/
theorem decryptStreamUndoesEncryptStream : Obligations.DecryptStreamUndoesEncryptStream := by
  intro s hinv hkv hroom hm
  obtain ⟨z, key, hk, hs⟩ := hinv.exists_key hkv
  obtain ⟨-, -, -, -, -, hwf, -⟩ := State.inv_iff.1 hinv
  have padded := appendPadding_len s.BUF
  have hmax : (appendPadding s.BUF).len ≤ Config.maxLen := by rw [Config.maxLen]; omega
  obtain ⟨t, encrypts, hmt, hkt, hst, hbuf, hr, hh⟩ := run_encryptStream hk hs hm padded hmax
  have len : t.BUF.len = 16 * (s.BUF.len / 16 + 1) := by rw [hbuf, mapBlocks_len, padded]
  have padded_wf : (appendPadding s.BUF).wf = true := memAppend_wf _ hwf (by rwa [← memAppend_len])
  have decrypted : mapBlocks (streamCipherBlock .decrypt (expandKey key) z.nr) t.BUF (s.BUF.len / 16 + 1) =
      appendPadding s.BUF := by
    rw [hbuf]
    exact mapBlocks_mapBlocks_cancel padded_wf padded fun g => decryptBlock_encryptBlock g _ _
  obtain ⟨u, decrypts, hmu, hbufu, hhu⟩ := run_decryptStream hkt hst hmt len (by omega)
    (decrypted ▸ stripPadding_appendPadding hwf)
  exact ⟨t, u, encrypts, hmt, len, hr, decrypts, hmu, hbufu, by rw [hhu, hh, List.append_assoc]; rfl⟩

end Sys2Proof.Machine
end

section
/-!
The move that resets the CORE, and the worked words of the encoding chapter (spec 70_reset_and_hazards.md R286,
30_encoding.md section 8).
-/

namespace Sys2Proof.Machine

/-- Settles O2: the move is taken, and `resetCore` writes the registers of the CORE alone. -/
theorem resetMoveRestoresTheCore : Obligations.ResetMoveRestoresTheCore :=
  fun _ _ reset => step_cons reset

/-- Settles O10: the decoder run on each of the seven words. -/
theorem workedWordsDecode : Obligations.WorkedWordsDecode :=
  ⟨rfl, rfl, rfl, rfl, rfl, rfl, rfl⟩

end Sys2Proof.Machine
end

section
/-!
The first error of a command, column by column of the table (spec 60_exceptions.md R257 to R261, R275): when each
column applies, and which codes it has.
-/

namespace Sys2Proof.Machine

variable {i : Instr} {s : State} {c : BitVec 8}

/-! ### NotReady (R257) -/

theorem notReadyWhen_eq_true_iff : notReadyWhen i s = true ↔
    (needsKey i = true ∧ s.KV = false) ∨ (needsBlock i = true ∧ s.BV = false) := by
  simp [notReadyWhen]

theorem notReadyWhen_eq_false (hk : needsKey i = false ∨ s.KV = true) (hb : needsBlock i = false ∨ s.BV = true) :
    notReadyWhen i s = false := by
  rw [notReadyWhen, Bool.or_eq_false_iff, Bool.and_eq_false_iff, Bool.and_eq_false_iff]
  exact ⟨hk.imp_right (congrArg Bool.not), hb.imp_right (congrArg Bool.not)⟩

/-! ### The order of the checks (R261) -/

theorem firstError_of_no_key (hi : needsKey i = true) (h : s.KV = false) :
    firstError i s = some Err.notReady.code :=
  if_pos (notReadyWhen_eq_true_iff.mpr (.inl ⟨hi, h⟩))

theorem firstError_of_no_block (hi : needsBlock i = true) (h : s.BV = false) :
    firstError i s = some Err.notReady.code :=
  if_pos (notReadyWhen_eq_true_iff.mpr (.inr ⟨hi, h⟩))

theorem firstError_of_rangeError (hready : notReadyWhen i s = false) (h : rangeErrorWhen i s = true) :
    firstError i s = some Err.rangeError.code := by
  rw [firstError, hready, h]
  rfl

theorem firstError_eq_memoryErrorOf (hready : notReadyWhen i s = false) (h : rangeErrorWhen i s = false) :
    firstError i s = memoryErrorOf i s := by
  rw [firstError, hready, h]
  rfl

/-! ### The codes -/

/-- The checks that consult a byte space have three codes (R252, R253, R259). -/
theorem mem_of_memoryErrorOf (h : memoryErrorOf i s = some c) : c ∈ [0x10#8, 0x11#8, 0x23#8] := by
  cases i with
  | keyld | cons | dump =>
    simp only [memoryErrorOf] at h
    split at h <;> cases h
    decide
  | _ => cases h

/-- NotReady comes from its own column, and no column has the code of IllegalCommand. -/
theorem notReady_or_mem_of_firstError (h : firstError i s = some c) :
    (notReadyWhen i s = true ∧ c = 0x21) ∨ c ∈ [0x10#8, 0x11#8, 0x22#8, 0x23#8] := by
  unfold firstError at h
  split_ifs at h with hready hrange
  · exact .inl ⟨hready, (Option.some.inj h).symm⟩
  · cases h; exact .inr (by decide)
  · have := mem_of_memoryErrorOf h
    simp only [List.mem_cons] at this ⊢
    tauto

end Sys2Proof.Machine
end

section
/-!
The commands that find a Key or a Block State missing (spec 60_exceptions.md R257): they answer NotReady in every
state, whatever the other registers hold.
-/

namespace Sys2Proof.Machine

variable {i : Instr} {s : State}

theorem transformBlock_of_no_block (h : s.BV = false) (f : Grid → Grid) :
    transformBlock f s = .next (s.afterError Err.notReady.code) := by
  rw [transformBlock, if_pos (by simp [blockMissing, h]), raise_eq_afterError]

theorem cipherBlock_of_missing (h : s.KV = false ∨ s.BV = false) (big : Nat → Bool)
    (f : Grid → List Quad → Nat → Grid) :
    cipherBlock big f s = .next (s.afterError Err.notReady.code) := by
  rw [cipherBlock, if_pos (by simpa [keyOrBlockMissing] using h), raise_eq_afterError]

theorem cipherBlock_of_big {z : KeySize} {big : Nat → Bool} (hkv : s.KV = true) (hbv : s.BV = true)
    (hz : s.KLEN = some z) (hbig : big z.nr = true) (f : Grid → List Quad → Nat → Grid) :
    cipherBlock big f s = .next (s.afterError Err.rangeError.code) := by
  rw [cipherBlock, if_neg (by simp [keyOrBlockMissing, hkv, hbv]), withKey_of_KLEN hz, if_pos hbig,
    raise_eq_afterError]

theorem exec_rdrow_of_no_block (h : s.BV = false) (row : BitVec 8) :
    exec (.rdrow row) s = .next (s.afterError Err.notReady.code) := by
  rw [exec_rdrow, execRdrow, if_pos (by simp [blockMissing, h]), raise_eq_afterError]

/-- ADDRK, ENCRYPT and DECRYPT are the commands that need a Key and a Block State; the row of the table says the
same of their round as their meaning does, and no byte space is consulted (R191, R202, R203). -/
theorem exists_exec_eq_cipherBlock (hk : needsKey i = true) (hb : needsBlock i = true) (s : State) :
    ∃ big f, exec i s = cipherBlock big f s ∧ (∀ z, s.KLEN = some z → rangeErrorWhen i s = big z.nr) ∧
      memoryErrorOf i s = none := by
  cases i with
  | addrk round =>
    exact ⟨_, _, by rw [exec_addrk, execAddrk], fun z hz => by rw [rangeErrorWhen, hz]; rfl, rfl⟩
  | encrypt => exact ⟨_, _, by rw [exec_encrypt, execEncrypt], fun _ _ => rfl, rfl⟩
  | decrypt => exact ⟨_, _, by rw [exec_decrypt, execDecrypt], fun _ _ => rfl, rfl⟩
  | kexp | rdrk => cases hb
  | _ => cases hk

theorem exec_of_no_key (hi : needsKey i = true) (h : s.KV = false) :
    exec i s = .next (s.afterError Err.notReady.code) := by
  cases i with
  | kexp => exact exec_kexp_of_no_key h
  | rdrk round row => exact exec_rdrk_of_no_key h round row
  | addrk | encrypt | decrypt =>
    obtain ⟨big, f, hexec, -⟩ := exists_exec_eq_cipherBlock hi rfl s
    exact hexec.trans (cipherBlock_of_missing (.inl h) big f)
  | _ => cases hi

theorem exec_of_no_block (hi : needsBlock i = true) (h : s.BV = false) :
    exec i s = .next (s.afterError Err.notReady.code) := by
  cases i with
  | dump => exact exec_dump_of_no_block h
  | rdrow row => exact exec_rdrow_of_no_block h row
  | subbytes | isubbytes | shiftrows | ishiftrows | mixcols | imixcols => exact transformBlock_of_no_block h _
  | addrk | encrypt | decrypt =>
    obtain ⟨big, f, hexec, -⟩ := exists_exec_eq_cipherBlock rfl hi s
    exact hexec.trans (cipherBlock_of_missing (.inr h) big f)
  | _ => cases hi

/-- A command that is not ready answers NotReady (R257). -/
theorem exec_of_notReadyWhen (h : notReadyWhen i s = true) :
    exec i s = .next (s.afterError Err.notReady.code) := by
  obtain ⟨hi, hkv⟩ | ⟨hi, hbv⟩ := notReadyWhen_eq_true_iff.mp h
  · exact exec_of_no_key hi hkv
  · exact exec_of_no_block hi hbv

end Sys2Proof.Machine
end

section
/-!
Every next state of a command is the one its row of the table gives (spec 60_exceptions.md R275), in every state:
the invariant is needed only for there to be a next state.
-/

namespace Sys2Proof.Machine

variable {i : Instr} {s t : State}

/-- What the table of R275 lets a command answer: its first error, or, without one, a response that is OK, or EOD for
LOAD alone, with ERR as it was. -/
inductive TableOutcome (i : Instr) (s t : State) : Prop
  | raised (e : Err) (he : firstError i s = some e.code) (ht : t = raise e s)
  | answered (r : Response) (hn : firstError i s = none) (hr : t.responses = s.responses ++ [r])
      (hst : r.st = 0x00 ∨ (r.st = 0x01 ∧ r.data = 0 ∧ ∃ off, i = .load off)) (hERR : t.ERR = s.ERR)

/-- A command without an error that completes (R13). -/
theorem TableOutcome.of_respondOk {u : State} {d : BitVec 32} (hn : firstError i s = none)
    (hu : u.responses = s.responses ∧ u.ERR = s.ERR) : TableOutcome i s (respondOk d u) := by
  obtain ⟨responses, err⟩ := hu
  exact .answered _ hn (responses ▸ respondOk_responses d u) (.inl rfl) err

/-- `ensure_schedule` gives no response and leaves ERR (R144). -/
theorem ensureSchedule_keeps {z : KeySize} {u : State} (hu : ensureSchedule z s = some u) :
    u.responses = s.responses ∧ u.ERR = s.ERR := by
  obtain ⟨-, rfl⟩ | ⟨-, key, -, rfl⟩ := ensureSchedule_cases hu <;> exact ⟨rfl, rfl⟩

/-! ### The shared operations -/

theorem transformBlock_tableOutcome {f : Grid → Grid} (hk : needsKey i = false) (hb : needsBlock i = true)
    (hr : rangeErrorWhen i s = false) (hm : memoryErrorOf i s = none) (h : transformBlock f s = .next t) :
    TableOutcome i s t := by
  obtain ⟨hbv, rfl⟩ | ⟨hbv, g, -, rfl⟩ := transformBlock_next h
  · exact .raised .notReady (firstError_of_no_block hb hbv) rfl
  · have hn := (firstError_eq_memoryErrorOf (notReadyWhen_eq_false (.inl hk) (.inr hbv)) hr).trans hm
    exact .of_respondOk hn ⟨rfl, rfl⟩

theorem cipherBlock_tableOutcome {big : Nat → Bool} {f : Grid → List Quad → Nat → Grid} (hk : needsKey i = true)
    (hb : needsBlock i = true) (hr : ∀ z, s.KLEN = some z → rangeErrorWhen i s = big z.nr)
    (hm : memoryErrorOf i s = none) (h : cipherBlock big f s = .next t) : TableOutcome i s t := by
  obtain ⟨hkv | hbv, rfl⟩ | ⟨hkv, hbv, z, hz, hround⟩ := cipherBlock_next h
  · exact .raised .notReady (firstError_of_no_key hk hkv) rfl
  · exact .raised .notReady (firstError_of_no_block hb hbv) rfl
  · have ready := notReadyWhen_eq_false (i := i) (.inr hkv) (.inr hbv)
    obtain ⟨hbig, rfl⟩ | ⟨hbig, u, ws, g, hu, -, -, rfl⟩ := hround
    · exact .raised .rangeError (firstError_of_rangeError ready ((hr z hz).trans hbig)) rfl
    · have hn := (firstError_eq_memoryErrorOf ready ((hr z hz).trans hbig)).trans hm
      have kept := ensureSchedule_keeps hu
      exact .of_respondOk hn kept

/-! ### The commands with a row of their own -/

theorem execRcon_tableOutcome {x : BitVec 8} (h : execRcon x s = .next t) : TableOutcome (.rcon x) s t := by
  obtain ⟨hx, rfl⟩ | ⟨hx, d, rfl⟩ := execRcon_next h
  · exact .raised .rangeError (firstError_of_rangeError rfl (decide_eq_true hx)) rfl
  · have range : rangeErrorWhen (.rcon x) s = false := decide_eq_false hx.not_gt
    exact .of_respondOk (firstError_eq_memoryErrorOf rfl range) ⟨rfl, rfl⟩

/-- The lengths KEYLD refuses are those its row names (R135, R252). -/
theorem KeySize.ofLength_eq_none_iff {n : Nat} : KeySize.ofLength n = none ↔ ¬ (n = 16 ∨ n = 24 ∨ n = 32) := by
  constructor
  · rintro h (rfl | rfl | rfl) <;> cases h
  · intro h
    simp only [not_or] at h
    obtain ⟨h16, h24, h32⟩ := h
    exact KeySize.ofLength_eq_none h16 h24 h32

theorem execKeyld_tableOutcome (h : execKeyld s = .next t) : TableOutcome .keyld s t := by
  have hrow : firstError .keyld s =
      if s.KSRC.len = 16 ∨ s.KSRC.len = 24 ∨ s.KSRC.len = 32 then none else some Err.keySizeError.code :=
    firstError_eq_memoryErrorOf rfl rfl
  obtain ⟨hz, rfl⟩ | ⟨z, hz, rfl⟩ := execKeyld_next h
  · exact .raised .keySizeError (hrow.trans (if_neg (KeySize.ofLength_eq_none_iff.1 hz))) rfl
  · have legal : KeySize.ofLength s.KSRC.len ≠ none := by simp [hz]
    rw [ne_eq, KeySize.ofLength_eq_none_iff, not_not] at legal
    exact .of_respondOk (hrow.trans (if_pos legal)) ⟨rfl, rfl⟩

theorem execKexp_tableOutcome (h : execKexp s = .next t) : TableOutcome .kexp s t := by
  obtain ⟨hkv, rfl⟩ | ⟨hkv, z, u, -, hu, rfl⟩ := execKexp_next h
  · exact .raised .notReady (firstError_of_no_key rfl hkv) rfl
  · have ready : notReadyWhen .kexp s = false := notReadyWhen_eq_false (.inr hkv) (.inl rfl)
    exact .of_respondOk (firstError_eq_memoryErrorOf ready rfl) (ensureSchedule_keeps hu)

theorem execRdrk_tableOutcome {round row : BitVec 8} (h : execRdrk round row s = .next t) :
    TableOutcome (.rdrk round row) s t := by
  obtain ⟨hkv, rfl⟩ | ⟨hkv, z, hz, hround⟩ := execRdrk_next h
  · exact .raised .notReady (firstError_of_no_key rfl hkv) rfl
  · have ready : notReadyWhen (.rdrk round row) s = false := notReadyWhen_eq_false (.inr hkv) (.inl rfl)
    have range : rangeErrorWhen (.rdrk round row) s = decide (z.nr < round.toNat) := by
      rw [rangeErrorWhen, hz]; rfl
    obtain ⟨hlt, rfl⟩ | ⟨hle, u, d, hu, rfl⟩ := hround
    · exact .raised .rangeError (firstError_of_rangeError ready (range.trans (decide_eq_true hlt))) rfl
    · have hn := firstError_eq_memoryErrorOf ready (range.trans (decide_eq_false hle.not_gt))
      exact .of_respondOk hn (ensureSchedule_keeps hu)

theorem execLoad_tableOutcome {off : BitVec 32} (h : execLoad off s = .next t) : TableOutcome (.load off) s t := by
  obtain ⟨-, rfl⟩ | ⟨-, rfl⟩ := execLoad_next h
  · exact .answered _ rfl (respondEod_responses _) (.inr ⟨rfl, rfl, off, rfl⟩) rfl
  · exact .of_respondOk rfl ⟨rfl, rfl⟩

theorem execDump_tableOutcome {off : BitVec 32} (h : execDump off s = .next t) : TableOutcome (.dump off) s t := by
  have hrow (hbv : s.BV = true) : firstError (.dump off) s =
      if s.BUF.len < off.toNat + 16 then some Err.boundsError.code else none :=
    firstError_eq_memoryErrorOf (notReadyWhen_eq_false (.inl rfl) (.inr hbv)) rfl
  obtain ⟨hbv, rfl⟩ | ⟨hbv, hlt, rfl⟩ | ⟨hbv, hle, g, -, rfl⟩ := execDump_next h
  · exact .raised .notReady (firstError_of_no_block rfl hbv) rfl
  · exact .raised .boundsError ((hrow hbv).trans (if_pos hlt)) rfl
  · exact .of_respondOk ((hrow hbv).trans (if_neg hle.not_gt)) ⟨rfl, rfl⟩

theorem execCons_tableOutcome {off : BitVec 32} {len : BitVec 8} (h : execCons off len s = .next t) :
    TableOutcome (.cons off len) s t := by
  have hrow : firstError (.cons off len) s =
      if len.toNat = 16 ∧ off.toNat + 16 ≤ s.BUF.len then none else some Err.stateSizeError.code :=
    firstError_eq_memoryErrorOf rfl rfl
  obtain ⟨hbad, rfl⟩ | ⟨hlen, hle, rfl⟩ := execCons_next h
  · exact .raised .stateSizeError (hrow.trans (if_neg (by omega))) rfl
  · exact .of_respondOk (hrow.trans (if_pos ⟨hlen, hle⟩)) ⟨rfl, rfl⟩

theorem execRdrow_tableOutcome {row : BitVec 8} (h : execRdrow row s = .next t) : TableOutcome (.rdrow row) s t := by
  obtain ⟨hbv, rfl⟩ | ⟨hbv, d, rfl⟩ := execRdrow_next h
  · exact .raised .notReady (firstError_of_no_block rfl hbv) rfl
  · have ready : notReadyWhen (.rdrow row) s = false := notReadyWhen_eq_false (.inl rfl) (.inr hbv)
    exact .of_respondOk (firstError_eq_memoryErrorOf ready rfl) ⟨rfl, rfl⟩

/-! ### All commands -/

/-- Every next state of a command follows its row (R275). -/
theorem exec_tableOutcome (h : exec i s = .next t) : TableOutcome i s t := by
  by_cases cipher : needsKey i = true ∧ needsBlock i = true
  · obtain ⟨hk, hb⟩ := cipher
    obtain ⟨big, f, hexec, hr, hm⟩ := exists_exec_eq_cipherBlock hk hb s
    exact cipherBlock_tableOutcome hk hb hr hm (hexec.symm.trans h)
  cases i with
  | gfadd | gfdbl | gfmul | gfmix | gfimix | sbox | isbox => cases h; exact .of_respondOk rfl ⟨rfl, rfl⟩
  | rcon => exact execRcon_tableOutcome h
  | keyld => exact execKeyld_tableOutcome h
  | kexp => exact execKexp_tableOutcome h
  | rdrk => exact execRdrk_tableOutcome h
  | load => exact execLoad_tableOutcome h
  | dump => exact execDump_tableOutcome h
  | cons => exact execCons_tableOutcome h
  | rdrow => exact execRdrow_tableOutcome h
  | rdcsr => obtain ⟨d, rfl⟩ := execRdcsr_next h; exact .of_respondOk rfl ⟨rfl, rfl⟩
  | subbytes | isubbytes | shiftrows | ishiftrows | mixcols | imixcols =>
    exact transformBlock_tableOutcome rfl rfl rfl rfl h
  | addrk | encrypt | decrypt => exact absurd ⟨rfl, rfl⟩ cipher

/-- The status of a response: NotReady from its own column, OK, EOD, or a code of the other columns. -/
theorem TableOutcome.status {r : Response} (h : TableOutcome i s t) (hr : t.responses = s.responses ++ [r]) :
    (notReadyWhen i s = true ∧ r.st = 0x21) ∨ r.st ∈ [0x00#8, 0x01#8, 0x10#8, 0x11#8, 0x22#8, 0x23#8] := by
  cases h with
  | raised e he ht =>
    subst ht
    obtain rfl : _ = r := List.singleton_inj.1 (List.append_cancel_left hr)
    exact (notReady_or_mem_of_firstError he).imp_right fun h => .tail _ (.tail _ h)
  | answered r' _ hr' hst =>
    obtain rfl : r' = r := List.singleton_inj.1 (List.append_cancel_left (hr'.symm.trans hr))
    obtain ok | ⟨eod, -⟩ := hst
    · exact .inr (by rw [ok]; decide)
    · exact .inr (by rw [eod]; decide)

/-- Settles O44: the table has NotReady in its first column alone. -/
theorem notReadyExactlyWhenMissing : Obligations.NotReadyExactlyWhenMissing := by
  refine fun i s => ⟨exec_of_notReadyWhen, fun ready t ht r hr notReady => ?_⟩
  obtain ⟨missing, -⟩ | other := (exec_tableOutcome ht).status hr
  · exact absurd missing (by simp [ready])
  · rw [notReady] at other
    exact absurd other (by decide)

end Sys2Proof.Machine
end

section
/-!
In a state that meets the invariant every command has a next state (spec 10_state.md R37, R39,
70_reset_and_hazards.md R299): the registers it reads beside a valid flag at 1 are held.
-/

namespace Sys2Proof.Machine

variable {s : State}

/-- With BV = 1 a Block State is held (R39 d). -/
theorem State.Inv.exists_block (h : s.Inv) (hbv : s.BV = true) : ∃ g, s.HoldsBlock g := by
  obtain ⟨-, -, hblk, -⟩ := State.inv_iff.1 h
  obtain ⟨g, hg⟩ := Option.isSome_iff_exists.1 (hblk.symm.trans hbv)
  exact ⟨g, hbv, hg⟩

/-- A choice between two next states is a next state. -/
theorem exists_next_ite (c : Prop) [Decidable c] (u v : State) :
    ∃ t, (if c then .next u else .next v : Result) = .next t :=
  ⟨_, (apply_ite Host.Outcome.next c u v).symm⟩

/-! ### The shared operations -/

theorem State.Inv.transformBlock_answers (h : s.Inv) (f : Grid → Grid) : ∃ t, transformBlock f s = .next t := by
  cases hbv : s.BV with
  | false => exact ⟨_, transformBlock_of_no_block hbv f⟩
  | true =>
    obtain ⟨g, hb⟩ := h.exists_block hbv
    exact ⟨_, transformBlock_of hb f⟩

theorem State.Inv.cipherBlock_answers (h : s.Inv) (big : Nat → Bool) (f : Grid → List Quad → Nat → Grid) :
    ∃ t, cipherBlock big f s = .next t := by
  by_cases missing : s.KV = false ∨ s.BV = false
  · exact ⟨_, cipherBlock_of_missing missing big f⟩
  · simp only [not_or, Bool.not_eq_false] at missing
    obtain ⟨hkv, hbv⟩ := missing
    obtain ⟨z, key, hk, hs⟩ := h.exists_key hkv
    obtain ⟨g, hb⟩ := h.exists_block hbv
    have ⟨_, hz, _, _⟩ := hk
    cases hbig : big z.nr with
    | false => exact ⟨_, cipherBlock_of hk hs hb big f hbig⟩
    | true => exact ⟨_, cipherBlock_of_big hkv hbv hz hbig f⟩

/-! ### The commands that read a register in a way of their own -/

theorem execKeyld_answers (s : State) : ∃ t, execKeyld s = .next t := by
  unfold execKeyld
  split <;> exact ⟨_, rfl⟩

theorem State.Inv.execKexp_answers (h : s.Inv) : ∃ t, execKexp s = .next t := by
  cases hkv : s.KV with
  | false => exact ⟨_, exec_kexp_of_no_key hkv⟩
  | true =>
    obtain ⟨z, key, hk, hs⟩ := h.exists_key hkv
    have ⟨_, hz, _, _⟩ := hk
    exact ⟨_, exec_kexp_of_ensureSchedule hkv hz (ensureSchedule_of hk hs)⟩

theorem State.Inv.execRdrk_answers (h : s.Inv) (round row : BitVec 8) : ∃ t, execRdrk round row s = .next t := by
  cases hkv : s.KV with
  | false => exact ⟨_, exec_rdrk_of_no_key hkv round row⟩
  | true =>
    obtain ⟨z, key, hk, hs⟩ := h.exists_key hkv
    have ⟨_, hz, _, _⟩ := hk
    obtain hlt | hle := Nat.lt_or_ge z.nr round.toNat
    · exact ⟨_, exec_rdrk_of_nr_lt hkv hz hlt row⟩
    · exact ⟨_, exec_rdrk_of_le_nr hk hs hle row⟩

theorem State.Inv.execDump_answers (h : s.Inv) (off : BitVec 32) : ∃ t, execDump off s = .next t := by
  cases hbv : s.BV with
  | false => exact ⟨_, exec_dump_of_no_block hbv⟩
  | true =>
    obtain ⟨g, hb⟩ := h.exists_block hbv
    obtain hlt | hle := Nat.lt_or_ge s.BUF.len (off.toNat + 16)
    · exact ⟨_, exec_dump_of_lt hbv hlt⟩
    · exact ⟨_, exec_dump_of_le hb hle⟩

theorem State.Inv.execRdrow_answers (h : s.Inv) (row : BitVec 8) : ∃ t, execRdrow row s = .next t := by
  cases hbv : s.BV with
  | false => exact ⟨_, exec_rdrow_of_no_block hbv row⟩
  | true =>
    obtain ⟨g, hb⟩ := h.exists_block hbv
    exact ⟨_, exec_rdrow_of_block hb row⟩

theorem State.Inv.execRdcsr_answers (h : s.Inv) (n : BitVec 8) : ∃ t, execRdcsr n s = .next t := by
  unfold execRdcsr
  split
  · exact ⟨_, rfl⟩
  · cases hkv : s.KV with
    | false => exact ⟨_, if_pos (by simp [keyMissing, hkv])⟩
    | true =>
      obtain ⟨z, key, ⟨_, hz, _, _⟩, -⟩ := h.exists_key hkv
      exact ⟨_, (if_neg (by simp [keyMissing, hkv])).trans (withKey_of_KLEN hz _)⟩

/-! ### All commands and all words -/

/-- Every command is answered: R39 rules the faults out. -/
theorem State.Inv.exec_answers (h : s.Inv) (i : Instr) : ∃ t, exec i s = .next t := by
  by_cases cipher : needsKey i = true ∧ needsBlock i = true
  · obtain ⟨hk, hb⟩ := cipher
    obtain ⟨big, f, hexec, -⟩ := exists_exec_eq_cipherBlock hk hb s
    exact hexec ▸ h.cipherBlock_answers big f
  cases i with
  | gfadd | gfdbl | gfmul | gfmix | gfimix | sbox | isbox => exact ⟨_, rfl⟩
  | rcon | load | cons => exact exists_next_ite _ _ _
  | keyld => exact execKeyld_answers s
  | kexp => exact h.execKexp_answers
  | rdrk round row => exact h.execRdrk_answers round row
  | dump off => exact h.execDump_answers off
  | rdrow row => exact h.execRdrow_answers row
  | rdcsr n => exact h.execRdcsr_answers n
  | subbytes | isubbytes | shiftrows | ishiftrows | mixcols | imixcols => exact h.transformBlock_answers _
  | addrk | encrypt | decrypt => exact absurd ⟨rfl, rfl⟩ cipher

/-- Settles O43: there is a next state, and it is the one the row of the table gives. -/
theorem errorsFollowTheTable : Obligations.ErrorsFollowTheTable := by
  intro i s h
  obtain ⟨t, ht⟩ := h.exec_answers i
  cases exec_tableOutcome ht with
  | raised e he hraise => rw [he, ht, hraise, raise_eq_afterError]
  | answered r hn hr hst hERR => rw [hn]; exact ⟨t, r, ht, hr, hst, hERR⟩

/-- No command touches the pending moves (R40). -/
theorem exec_host {i : Instr} {t : State} (h : exec i s = .next t) : t.host = s.host := by
  obtain ⟨-, -, -, -, -, -, -, hhost, -⟩ := commandsWriteOnlyTheirRegisters i s t h
  exact hhost

/-- A word that does not decode raises IllegalCommand (R256). -/
theorem issue_of_error {w : BitVec 64} {e : Reject} (h : decode w = .error e) (s : State) :
    issue w s = .next (raise .illegalCommand s) := by
  rw [issue, h]

/-- Settles O52: taking the move keeps the invariant, and a word is a command or illegal. -/
theorem everyCommandFinishes : Obligations.EveryCommandFinishes := by
  intro s w rest h hm
  have hstep : step s = issue w { s with host := rest } := step_cons hm
  cases hw : decode w with
  | error e => exact ⟨_, _, hstep.trans (issue_of_error hw _), raise_responses _ _, rfl⟩
  | ok i =>
    obtain ⟨t, ht⟩ := ((HostOnly.of_host s rest s.hostResults).keeps_inv h).exec_answers i
    obtain ⟨r, hr, -⟩ := oneResponsePerCommand i _ t ht
    exact ⟨t, r, hstep.trans ((issue_of_decode hw _).trans ht), hr, exec_host ht⟩

end Sys2Proof.Machine
end

section
/-!
The words that are no command (spec 30_encoding.md R80, R81, 60_exceptions.md R256).
-/

namespace Sys2Proof.Machine

/-- A word decodes exactly when a row of the table hits it (R80). -/
theorem exists_decode_iff_hits {w : BitVec 64} :
    (∃ i, decode w = .ok i) ↔ ∃ r ∈ opcodeTable, r.hits w = true := by
  have hits : (∃ r ∈ opcodeTable, r.hits w = true) ↔ opcodeTable.filter (·.hits w) ≠ [] := by simp
  have table := decodeFollowsTheOpcodeTable w
  cases hw : decode w with
  | ok i =>
    have hne : opcodeTable.filter (·.hits w) ≠ [] := fun hnil => by simp [hw, hnil] at table
    exact ⟨fun _ => hits.2 hne, fun _ => ⟨i, rfl⟩⟩
  | error e =>
    rw [hw] at table
    exact ⟨fun ⟨_, hi⟩ => (nomatch hi), fun hit => absurd table (hits.1 hit)⟩

/-- Settles O5: the illegal words are those that do not decode, and no command has the code of IllegalCommand in its
row. -/
theorem illegalWordsRaiseIllegalCommand : Obligations.IllegalWordsRaiseIllegalCommand := by
  intro s w rest hm
  have hstep : step s = issue w { s with host := rest } := step_cons hm
  refine ⟨fun hno => ?_, fun hhit t ht r hr illegal => ?_⟩
  · cases hw : decode w with
    | ok i =>
      obtain ⟨row, hrow, hit⟩ := exists_decode_iff_hits.1 ⟨i, hw⟩
      exact absurd hit (by simp [hno row hrow])
    | error e => rw [hstep, issue_of_error hw, raise_eq]; rfl
  · obtain ⟨i, hi⟩ := exists_decode_iff_hits.2 hhit
    rw [hstep, issue_of_decode hi] at ht
    obtain ⟨-, notReady⟩ | other := (exec_tableOutcome ht).status hr
    · exact absurd (illegal.symm.trans notReady) (by decide)
    · rw [illegal] at other
      exact absurd other (by decide)

end Sys2Proof.Machine
end
